-- ==== Sys2Proof/Word.lean ====
section
/-! DEFINITION. The word types of the engine (00_scope R7: all values unsigned, bit 0 least significant) and the
two-valued operand of ADVANCE. -/

namespace Sys2Proof

/-- A command word (30_encoding R66). -/
abbrev CmdWord := BitVec 32

/-- A motor number as the caller gives it, field `MN`, 0..3 (30_encoding R70). -/
abbrev MotorNumber := BitVec 2

/-- A Port channel 0..15 (20_memory R46, R54). -/
abbrev Channel := BitVec 4

/-- The unsigned immediate operand `IMM` (30_encoding R73). -/
abbrev Imm := BitVec 16

/-- An entry of the excitation table: a duty value, 12 bits (20_memory R46, R47). -/
abbrev Duty := BitVec 12

/-- One half of an (on, off) register pair of the external device, 13 bits (20_memory R52). -/
abbrev Half := BitVec 13

/-- The direction of an ADVANCE, field `B`: 0 = FORWARD, 1 = BACKWARD (30_encoding R71). -/
inductive Direction where
  | forward
  | backward
  deriving DecidableEq, Repr

/-- `DUTY_MAX`, the maximum representable duty (00_scope R5). -/
abbrev dutyMax : Nat := 4095

end Sys2Proof
end

