-- ==== Sys2Proof/Config.lean ====
section
/-! DEFINITION. The implementation parameters (00_scope R2, R5): values fixed for the life of one instance, which
no command, fault or reset changes (10_state R37, 70_reset R161). The host's fixed interface gives `step` no argument
but the state, so the parameters travel in a constant field of the state (log 3). -/

namespace Sys2Proof

/-- `MSTEP`, microsteps per full step: "compile-time constant 8 or 16" (R2, R5). -/
inductive MStep where
  | m8
  | m16
  deriving DecidableEq, Repr

/-- `INIT_ORDER` (R5): whether INIT resets the channels before or after programming the frequency. -/
inductive InitOrder where
  | resetThenFreq
  | freqThenReset
  deriving DecidableEq, Repr

/-- The two motor slots (10_state R27); slot s serves motor number s + 1. -/
inductive SlotId where
  | slot0
  | slot1
  deriving DecidableEq, Repr

/-- The six Port channels of one slot (10_state R35, 20_memory R55). -/
structure Pins where
  pwma : Channel
  ain1 : Channel
  ain2 : Channel
  pwmb : Channel
  bin1 : Channel
  bin2 : Channel
  deriving DecidableEq, Repr

/-- The parameters of one instance (R5). -/
structure Config where
  /-- `MSTEP` -/
  mstep : MStep
  /-- `EXC_TABLE`, T[0..M] -/
  excTable : List Duty
  /-- `PIN_MAP` of slot 0 -/
  pins0 : Pins
  /-- `PIN_MAP` of slot 1 -/
  pins1 : Pins
  /-- `INIT_ORDER` -/
  initOrder : InitOrder
  /-- `SLOT0_REARM` -/
  slot0Rearm : Bool
  /-- `BUS_ADDR` -/
  busAddr : BitVec 7
  deriving DecidableEq, Repr

/-- `M`, the number of microsteps per full step (R5, R6). -/
def MStep.count : MStep → Nat
  | .m8 => 8
  | .m16 => 16

/-- `M` of an instance (R6). -/
def Config.m (c : Config) : Nat := c.mstep.count

/-- `M4 = 4 × M`, the length of the excitation cycle (R6). -/
def Config.m4 (c : Config) : Nat := 4 * c.m

/-- `PIN_MAP[s]` (10_state R35). -/
def Config.pins (c : Config) : SlotId → Pins
  | .slot0 => c.pins0
  | .slot1 => c.pins1

/-- The six channels of a slot, in the order the parameter lists them (R5). -/
def Pins.channels (p : Pins) : List Channel := [p.pwma, p.ain1, p.ain2, p.pwmb, p.bin1, p.bin2]

/-- What a remainder or a quotient by 0 gives: 00_scope R7 defines them for a positive divisor only, and "a later
normalisation modulo 0 has no meaning" (41_motor_driver R106). A free value; no run asks for it (log 11). -/
opaque Config.byZero : Nat → Nat

end Sys2Proof
end

