-- ==== Sys2Proof/Machine/Reference.lean ====
section
/-! DEFINITION. The reference instances the spec gives for the open parameters (20_memory R48, R56) and the
defaults of 00_scope R5. They are what `State.reset` carries; every claim quantifies over the configuration. -/

namespace Sys2Proof

/-- Reference excitation table for M = 8 (20_memory R48). DESIGN CHOICE (log 5). -/
def referenceTable8 : List Duty := [0, 799, 1567, 2275, 2896, 3405, 3783, 4016, 4095]

/-- Reference excitation table for M = 16 (20_memory R48). DESIGN CHOICE (log 5). -/
def referenceTable16 : List Duty :=
  [0, 401, 799, 1189, 1567, 1930, 2275, 2598, 2896] ++
  [3165, 3405, 3611, 3783, 3919, 4016, 4075, 4095]

/-- Reference excitation table of a micro-resolution (20_memory R48). -/
def referenceTable : MStep → List Duty
  | .m8 => referenceTable8
  | .m16 => referenceTable16

/-- Reference pin map, slot 0 (20_memory R56). PRESUMED (log 4). -/
def referencePins0 : Pins := { pwma := 8, ain1 := 10, ain2 := 9, pwmb := 13, bin1 := 11, bin2 := 12 }

/-- Reference pin map, slot 1 (20_memory R56). PRESUMED (log 4). -/
def referencePins1 : Pins := { pwma := 2, ain1 := 4, ain2 := 3, pwmb := 7, bin1 := 5, bin2 := 6 }

/-- The reference instance of a micro-resolution: R48, R56 and the defaults of R5. -/
def referenceConfig (m : MStep) : Config where
  mstep := m
  excTable := referenceTable m
  pins0 := referencePins0
  pins1 := referencePins1
  initOrder := .resetThenFreq
  slot0Rearm := false
  busAddr := 0x60

end Sys2Proof
end

