-- ==== Sys2Proof/Machine/State.lean ====
section
/-! DEFINITION. The state of the engine as plain data (10_state), the reasons a step can stop, and the state after
reset (10_state R40, 70_reset R160). -/

namespace Sys2Proof.Machine

/-- The fault codes 1 to 9 of 60_exceptions R141, which a fault writes to STATUS.FCODE. -/
inductive FaultCode where
  | illegal
  | uninit
  | reinit
  | badSlot
  | unclaimed
  | range
  | div0
  | unwritten
  | bus
  deriving DecidableEq, Repr

/-- A Port transaction: one abstract write to the external PWM device (20_memory R52). -/
inductive Transaction where
  | busOpen (addr : BitVec 7)
  | freq (hz : Imm)
  | pwm (ch : Channel) (on off : Half)
  deriving DecidableEq, Repr

/-- The shadow of one channel register of the device (10_state R38): `unwritten` since reset; the `pair` of the last
PWM transaction; `unknown` after a PWM transaction answered by a bus fault (60_exceptions R146). The last two words
are the spec's own and stand for no number (log 10). -/
inductive ChanValue where
  | unwritten
  | pair (on off : Half)
  | unknown
  deriving DecidableEq, Repr

/-- The external transport's answer to one Port transaction (60_exceptions R146). -/
inductive PortAnswer where
  | accepted
  | busFault
  deriving DecidableEq, Repr

/-- The registers the host can read (10_state R26, 60_exceptions R153). -/
inductive HostReg where
  | status
  | resp
  | fcmd
  deriving DecidableEq, Repr

/-- What the host can do to the engine (70_reset R174): write one command word, read a register, reset. -/
inductive HostInput where
  | command (w : CmdWord)
  | read (r : HostReg)
  | reset
  deriving DecidableEq, Repr

/-- The registers of one motor slot (10_state R27 to R34). -/
structure Slot where
  /-- `CLAIMED[s]` (R28) -/
  claimed : Bool
  /-- `NREV[s]` (R30) -/
  nrev : BitVec 17
  /-- `PHASE[s]` (R31) -/
  phase : BitVec 6
  /-- `POS[s]` (R32) -/
  pos : BitVec 16
  /-- `TARGET[s]` (R33), no value of the machine while `tgtW` is false -/
  target : BitVec 16
  /-- `TGT_W[s]` (R33) -/
  tgtW : Bool
  /-- `SPEED[s]` (R34), no value of the machine while `spdW` is false -/
  speed : BitVec 32
  /-- `SPD_W[s]` (R34) -/
  spdW : Bool
  deriving DecidableEq, Repr

/-- The whole state. The fields from `status` to `out` are the spec's; `pc` is the model's notion of R22; `cfg` is
the instance's parameters, constant (log 3); `inputs` and `answers` are what comes from outside (log 1, log 2). -/
structure State where
  /-- The parameters of the instance (00_scope R5); no step changes them. -/
  cfg : Config
  /-- `STATUS` (R24): INIT_DONE bit 0, FAULTED bit 1, reserved 3:2, FCODE 7:4 -/
  status : BitVec 8
  /-- `RESP` (R25) -/
  resp : BitVec 32
  /-- `FCMD` (R42) -/
  fcmd : CmdWord
  /-- The registers of slot 0 (R27) -/
  slot0 : Slot
  /-- The registers of slot 1 (R27) -/
  slot1 : Slot
  /-- `CHAN[0..15]`, the shadow of the device's channel registers (R38) -/
  chan : Vector ChanValue 16
  /-- `OUT`, the Port transactions emitted, in order (20_memory R52, R59) -/
  out : List Transaction
  /-- Index of the next command in the host's stream: the commands completed (R22) -/
  pc : Nat
  /-- The host's pending interactions, oldest first (70_reset R174) -/
  inputs : List HostInput
  /-- The Port's pending answers, one per transaction, oldest first (60_exceptions R146) -/
  answers : List PortAnswer
  deriving DecidableEq, Repr

/-- Why a step has no next state. -/
inductive Fault where
  /-- Raised by every command word that reaches a halted engine with no reset pending: "a command written to it has
  no step" (60_exceptions R143; 93 I16 `stuck`). Safe: the machine stops where the engine changes nothing. -/
  | halted
  deriving DecidableEq, Repr

/-- Why a step has no meaning. -/
inductive Refusal where
  /-- Raised by an arm of `exec` for an instruction without a meaning; no arm does. Safe. -/
  | notModelled (mnemonic : String)
  /-- Raised by ADVANCE when the table holds no entry at the index it forms: "a model may treat an index outside 0..M
  as unreachable and refuse it" (20_memory R49). Only a configuration that R47 rejects reaches it. Safe. -/
  | tableIndex
  deriving DecidableEq, Repr

/-- The outcome of one step or one command. -/
abbrev Outcome := Host.Outcome State Fault Refusal

/-- A slot at reset (10_state R40). TARGET and SPEED are unwritten: their bits are 0 behind a written bit of 0.
DESIGN CHOICE (log 8). -/
def Slot.reset : Slot where
  claimed := false
  nrev := 0
  phase := 0
  pos := 0
  target := 0
  tgtW := false
  speed := 0
  spdW := false

/-- The state after reset of an instance with parameters `c` (10_state R40, 70_reset R160, R161). -/
def State.resetWith (c : Config) : State where
  cfg := c
  status := 0
  resp := 0
  fcmd := 0
  slot0 := Slot.reset
  slot1 := Slot.reset
  chan := Vector.replicate 16 .unwritten
  out := []
  pc := 0
  inputs := []
  answers := []

/-- The state after reset of the reference instance at M = 16. The spec gives `MSTEP` no default. DESIGN CHOICE
(log 3). -/
def State.reset : State := State.resetWith (referenceConfig .m16)

end Sys2Proof.Machine
end

