-- ==== Sys2Proof/Machine/Excitation.lean ====
section
/-! DEFINITION. The excitation function (41_motor_driver R101 to R104) and the movement of a slot's counters
(R109 steps 1 to 3). Counters are computed as naturals and then reduced (00_scope R8). -/

namespace Sys2Proof.Machine

/-- The four quadrants of the excitation cycle (R101). -/
inductive Quadrant where
  | q0
  | q1
  | q2
  | q3
  deriving DecidableEq, Repr

/-- `Quadrant(p) = p div M` for 0 ≤ p < 4M (R101). The last case is quotient 3, the only one left in that range. -/
def quadrantOf (m p : Nat) : Quadrant :=
  match p / m with
  | 0 => .q0
  | 1 => .q1
  | 2 => .q2
  | _ => .q3

/-- The table index of coil A, channel PWMA (R102). -/
def indexA (m : Nat) (q : Quadrant) (p : Nat) : Nat :=
  match q with
  | .q0 => m - p
  | .q1 => p - m
  | .q2 => 3 * m - p
  | .q3 => p - 3 * m

/-- The table index of coil B, channel PWMB (R102). -/
def indexB (m : Nat) (q : Quadrant) (p : Nat) : Nat :=
  match q with
  | .q0 => p
  | .q1 => 2 * m - p
  | .q2 => p - 2 * m
  | .q3 => 4 * m - p

/-- The latch state of a quadrant (R103). -/
def latchOf : Quadrant → BitVec 4
  | .q0 => 0x3
  | .q1 => 0x6
  | .q2 => 0xC
  | .q3 => 0x9

/-- `TableRead(i)` (20_memory R49); no entry outside 0..M. -/
def tableRead (c : Config) (i : Nat) : Option Duty := c.excTable[i]?

/-- What `Excite(p)` returns (R104). -/
structure Excitation where
  q : Quadrant
  iA : Nat
  iB : Nat
  dA : Duty
  dB : Duty
  latch : BitVec 4
  deriving DecidableEq, Repr

/-- `Excite(p)` (R104); none only where the table has no entry at an index (20_memory R49). -/
def excite (c : Config) (p : Nat) : Option Excitation :=
  let q := quadrantOf c.m p
  let iA := indexA c.m q p
  let iB := indexB c.m q p
  match tableRead c iA, tableRead c iB with
  | some dA, some dB => some { q := q, iA := iA, iB := iB, dA := dA, dB := dB, latch := latchOf q }
  | _, _ => none

/-- Step 1 of ADVANCE: move by one in a cycle of length `len`; BACKWARD substitutes the wrapped maximum at zero
(R109). -/
def stepBy (dir : Direction) (len x : Nat) : Nat :=
  match dir with
  | .forward => x + 1
  | .backward => if x = 0 then len - 1 else x - 1

/-- Steps 2 and 3 of ADVANCE: add the length, take the remainder (R109); by an empty length, a free value (log 11). -/
def normalise (len x : Nat) : Nat := if len = 0 then Config.byZero x else (x + len) % len

/-- The slot after steps 1 to 3 of ADVANCE: PHASE in its cycle of M4, POS in its revolution of NREV (R109). -/
def moveSlot (c : Config) (dir : Direction) (v : Slot) : Slot :=
  { v with
    phase := BitVec.ofNat 6 (normalise c.m4 (stepBy dir c.m4 v.phase.toNat))
    pos := BitVec.ofNat 16 (normalise v.nrev.toNat (stepBy dir v.nrev.toNat v.pos.toNat)) }

end Sys2Proof.Machine
end

