-- ==== Sys2Proof/Syntax.lean ====
section
/-! DEFINITION. The commands of the engine: one constructor per row of spec/opcode_table.json (30_encoding R68).
Operand types have exactly the widths of their fields (R67), so a value that no encoding holds cannot be written. -/

namespace Sys2Proof

/-- A decoded command. The last four are the reserved operation codes; they carry the 28 bits below `OPC`, which
are free in their rows and which a fault records in FCMD (30_encoding R74, 10_state R42). -/
inductive Instr where
  /-- INIT, OPC 0x1: `f` the carrier frequency in Hz (40_port R87). -/
  | init (f : Imm)
  /-- SET_DUTY, OPC 0x2 (40_port R92). -/
  | setDuty (ch : Channel) (v : Imm)
  /-- SET_RAIL, OPC 0x3 (40_port R93). -/
  | setRail (ch : Channel) (high : Bool)
  /-- CLAIM, OPC 0x4: `steps` the steps per revolution (41_motor_driver R105). -/
  | claim (mn : MotorNumber) (steps : Imm)
  /-- ADVANCE, OPC 0x5 (41_motor_driver R109). -/
  | advance (mn : MotorNumber) (dir : Direction)
  /-- RELEASE, OPC 0x6 (41_motor_driver R115). -/
  | release (mn : MotorNumber)
  /-- SET_TARGET, OPC 0x7 (41_motor_driver R116). -/
  | setTarget (mn : MotorNumber) (p : Imm)
  /-- SET_POSITION, OPC 0x8 (41_motor_driver R117). -/
  | setPosition (mn : MotorNumber) (p : Imm)
  /-- IS_AT_TARGET, OPC 0x9 (41_motor_driver R118). -/
  | isAtTarget (mn : MotorNumber)
  /-- GET_POSITION, OPC 0xA (41_motor_driver R119). -/
  | getPosition (mn : MotorNumber)
  /-- SET_SPEED, OPC 0xB (41_motor_driver R120). -/
  | setSpeed (mn : MotorNumber) (rpm : Imm)
  /-- GET_SPEED, OPC 0xC (41_motor_driver R121). -/
  | getSpeed (mn : MotorNumber)
  /-- OPC 0x0, reserved (30_encoding R74). -/
  | reserved0 (low : BitVec 28)
  /-- OPC 0xD, reserved (30_encoding R74). -/
  | reservedD (low : BitVec 28)
  /-- OPC 0xE, reserved (30_encoding R74). -/
  | reservedE (low : BitVec 28)
  /-- OPC 0xF, reserved (30_encoding R74). -/
  | reservedF (low : BitVec 28)
  deriving DecidableEq, Repr

end Sys2Proof
end

