-- ==== Sys2Proof/WellFormed.lean ====
section
/-! DEFINITION. What a legal instance is: the constraints "a model rejects at elaboration" (00_scope R5, 20_memory
R47, R55), as checks on a configuration and as the elaboration of raw parameters. A command needs no check of its
own: the types of `Instr` hold exactly the operands the encoding admits (30_encoding R67). -/

namespace Sys2Proof

/-- T[i] ≤ T[i+1] for neighbouring entries (20_memory R47, constraint 5). -/
def nonDecreasing : List Duty → Bool
  | [] => true
  | [_] => true
  | a :: b :: rest => decide (a.toNat ≤ b.toNat) && nonDecreasing (b :: rest)

/-- Length M + 1 (20_memory R47, constraint 1). -/
def Config.tableLengthOk (c : Config) : Bool := c.excTable.length == c.m + 1

/-- T[0] = 0 (20_memory R47, constraint 3). -/
def Config.tableStartOk (c : Config) : Bool := c.excTable.head? == some 0#12

/-- T[M] = 4095 (20_memory R47, constraint 4). -/
def Config.tableEndOk (c : Config) : Bool := c.excTable[c.m]? == some 4095#12

/-- Non-decreasing (20_memory R47, constraint 5; 90_conflicts C2). -/
def Config.tableOrderOk (c : Config) : Bool := nonDecreasing c.excTable

/-- The six channels of one slot are pairwise distinct and the two slots' sets do not overlap (20_memory R55). -/
def Config.pinsOk (c : Config) : Bool := decide ((c.pins0.channels ++ c.pins1.channels).Nodup)

/-- A legal instance: the constraints of 20_memory R47 and R55 (the 12-bit bound, the 4-bit bound and the values of
`MSTEP` are in the types). -/
def Config.wf (c : Config) : Bool :=
  c.tableLengthOk && c.tableStartOk && c.tableEndOk && c.tableOrderOk && c.pinsOk

/-- Parameters as a user of the model writes them, before any check (00_scope R5). The pins of a slot are listed in
the order PWMA, AIN1, AIN2, PWMB, BIN1, BIN2. -/
structure RawParams where
  mstep : Nat
  excTable : List Nat
  pins0 : List Nat
  pins1 : List Nat
  initOrder : InitOrder
  slot0Rearm : Bool
  busAddr : Nat
  deriving DecidableEq, Repr

/-- The constraints on parameters as written: `MSTEP` 8 or 16 and a 7-bit `BUS_ADDR` (00_scope R5); a table of length
M + 1 of 12-bit values, T[0] = 0, T[M] = 4095, non-decreasing (20_memory R47); six pins for each slot, each in 0..15,
and no channel twice (R55). Elaboration admits exactly these (`elaborate`). -/
abbrev RawParams.Legal (p : RawParams) : Prop :=
  (p.mstep = 8 ∨ p.mstep = 16) ∧ p.busAddr < 128 ∧
  p.excTable.length = p.mstep + 1 ∧ (∀ v ∈ p.excTable, v ≤ 4095) ∧
  p.excTable[0]? = some 0 ∧ p.excTable[p.mstep]? = some 4095 ∧ p.excTable.Pairwise (· ≤ ·) ∧
  p.pins0.length = 6 ∧ p.pins1.length = 6 ∧ (∀ v ∈ p.pins0 ++ p.pins1, v < 16) ∧ (p.pins0 ++ p.pins1).Nodup

/-- `MSTEP`: 8 or 16, "any other value is refused at elaboration" (00_scope R5). -/
def elaborateMStep (n : Nat) : Option MStep :=
  if n = 8 then some .m8 else if n = 16 then some .m16 else none

/-- Table entries: every one a 12-bit value (20_memory R47, constraint 2). -/
def elaborateTable (t : List Nat) : Option (List Duty) :=
  if t.all (fun v => decide (v ≤ dutyMax)) then some (t.map (BitVec.ofNat 12)) else none

/-- The pins of one slot: six numbers, each in 0..15 (20_memory R55). -/
def elaboratePins : List Nat → Option Pins
  | [a, b, c, d, e, f] =>
    if [a, b, c, d, e, f].all (fun v => decide (v < 16)) then
      some { pwma := BitVec.ofNat 4 a, ain1 := BitVec.ofNat 4 b, ain2 := BitVec.ofNat 4 c,
             pwmb := BitVec.ofNat 4 d, bin1 := BitVec.ofNat 4 e, bin2 := BitVec.ofNat 4 f }
    else none
  | _ => none

/-- Elaboration of an instance: the parameters checked, or a refusal (00_scope R5, 20_memory R47, R55). -/
def elaborate (p : RawParams) : Option Config := do
  let mstep ← elaborateMStep p.mstep
  let excTable ← elaborateTable p.excTable
  let pins0 ← elaboratePins p.pins0
  let pins1 ← elaboratePins p.pins1
  if p.busAddr < 128 then
    let c : Config := { mstep := mstep, excTable := excTable, pins0 := pins0, pins1 := pins1,
                        initOrder := p.initOrder, slot0Rearm := p.slot0Rearm,
                        busAddr := BitVec.ofNat 7 p.busAddr }
    if c.wf then some c else none
  else none

end Sys2Proof
end

