-- ==== Sys2Proof/Decode.lean ====
section
/-! DEFINITION. The command encoding (30_encoding): the fields of a word, the decoder total on every word, the
encoder, and beside them the mask-and-match table of rule R68 with the decoder rule R76 writes over it. -/

namespace Sys2Proof

/-- The fields of a command word (R67). -/
structure Fields where
  opc : BitVec 4
  mn : MotorNumber
  b : BitVec 1
  rsv : BitVec 5
  ch : Channel
  imm : Imm
  deriving DecidableEq, Repr

/-- The fields of `w` by bit number (R67). -/
def fieldsOf (w : CmdWord) : Fields where
  opc := w.extractLsb' 28 4
  mn := w.extractLsb' 26 2
  b := w.extractLsb' 25 1
  rsv := w.extractLsb' 20 5
  ch := w.extractLsb' 16 4
  imm := w.extractLsb' 0 16

/-- The word with the given fields, `OPC` in the high bits (R67). -/
def wordOf (f : Fields) : CmdWord := f.opc ++ (f.mn ++ (f.b ++ (f.rsv ++ (f.ch ++ f.imm))))

/-- The 28 bits below `OPC`, free in a reserved row (R68, R74). -/
def lowBits (w : CmdWord) : BitVec 28 := w.extractLsb' 0 28

/-- `DIR = B`: 0 = FORWARD, 1 = BACKWARD (R71). -/
def directionOf (b : BitVec 1) : Direction := if b = 0#1 then .forward else .backward

/-- The bit that encodes a direction (R71). -/
def directionBit : Direction → BitVec 1
  | .forward => 0#1
  | .backward => 1#1

/-- Why a word is no command of the table: its OPC is defined, and a must-be-zero bit is 1 (R69). -/
inductive Reject where
  | mustBeZero (opc : BitVec 4)
  deriving DecidableEq, Repr

/-- `i` if every must-be-zero field of its row is zero, else the rejection (R69). -/
def ifZero (zero : Bool) (opc : BitVec 4) (i : Instr) : Except Reject Instr :=
  if zero then .ok i else .error (.mustBeZero opc)

/-- The decoder, total on every 32-bit word: the row of R68 that `OPC` selects, with the row's unused fields
required to be zero (R69). Every word is either exactly one row's or illegal (R75). The last arm is `OPC` 0xF, the
one 4-bit value the others leave. -/
def decode (w : CmdWord) : Except Reject Instr :=
  let f := fieldsOf w
  match f.opc.toNat with
  | 0x0 => .ok (.reserved0 (lowBits w))
  | 0x1 => ifZero (f.mn == 0 && f.b == 0 && f.rsv == 0 && f.ch == 0) f.opc (.init f.imm)
  | 0x2 => ifZero (f.mn == 0 && f.b == 0 && f.rsv == 0) f.opc (.setDuty f.ch f.imm)
  | 0x3 => ifZero (f.mn == 0 && f.rsv == 0 && f.imm == 0) f.opc (.setRail f.ch (f.b == 1))
  | 0x4 => ifZero (f.b == 0 && f.rsv == 0 && f.ch == 0) f.opc (.claim f.mn f.imm)
  | 0x5 => ifZero (f.rsv == 0 && f.ch == 0 && f.imm == 0) f.opc (.advance f.mn (directionOf f.b))
  | 0x6 => ifZero (f.b == 0 && f.rsv == 0 && f.ch == 0 && f.imm == 0) f.opc (.release f.mn)
  | 0x7 => ifZero (f.b == 0 && f.rsv == 0 && f.ch == 0) f.opc (.setTarget f.mn f.imm)
  | 0x8 => ifZero (f.b == 0 && f.rsv == 0 && f.ch == 0) f.opc (.setPosition f.mn f.imm)
  | 0x9 => ifZero (f.b == 0 && f.rsv == 0 && f.ch == 0 && f.imm == 0) f.opc (.isAtTarget f.mn)
  | 0xA => ifZero (f.b == 0 && f.rsv == 0 && f.ch == 0 && f.imm == 0) f.opc (.getPosition f.mn)
  | 0xB => ifZero (f.b == 0 && f.rsv == 0 && f.ch == 0) f.opc (.setSpeed f.mn f.imm)
  | 0xC => ifZero (f.b == 0 && f.rsv == 0 && f.ch == 0 && f.imm == 0) f.opc (.getSpeed f.mn)
  | 0xD => .ok (.reservedD (lowBits w))
  | 0xE => .ok (.reservedE (lowBits w))
  | _ => .ok (.reservedF (lowBits w))

/-- The fields of a row that uses MN and IMM, or fewer, with the rest zero (R68, R69). -/
def motorFields (opc : BitVec 4) (mn : MotorNumber) (imm : Imm) : Fields :=
  { opc := opc, mn := mn, b := 0, rsv := 0, ch := 0, imm := imm }

/-- The encoder: the word of a command, from the same table (R68). -/
def encode : Instr → CmdWord
  | .init f => wordOf (motorFields 0x1 0 f)
  | .setDuty ch v => wordOf { opc := 0x2, mn := 0, b := 0, rsv := 0, ch := ch, imm := v }
  | .setRail ch high => wordOf { opc := 0x3, mn := 0, b := BitVec.ofBool high, rsv := 0, ch := ch, imm := 0 }
  | .claim mn steps => wordOf (motorFields 0x4 mn steps)
  | .advance mn dir => wordOf { opc := 0x5, mn := mn, b := directionBit dir, rsv := 0, ch := 0, imm := 0 }
  | .release mn => wordOf (motorFields 0x6 mn 0)
  | .setTarget mn p => wordOf (motorFields 0x7 mn p)
  | .setPosition mn p => wordOf (motorFields 0x8 mn p)
  | .isAtTarget mn => wordOf (motorFields 0x9 mn 0)
  | .getPosition mn => wordOf (motorFields 0xA mn 0)
  | .setSpeed mn rpm => wordOf (motorFields 0xB mn rpm)
  | .getSpeed mn => wordOf (motorFields 0xC mn 0)
  | .reserved0 low => 0x0#4 ++ low
  | .reservedD low => 0xD#4 ++ low
  | .reservedE low => 0xE#4 ++ low
  | .reservedF low => 0xF#4 ++ low

/-- One row of the opcode map (R68): a word `w` is the row's exactly when `w AND mask = match`. -/
structure Row where
  mnemonic : String
  pattern : CmdWord
  mask : CmdWord
  deriving DecidableEq, Repr

/-- Whether `w` encodes the row's command (R68). -/
def Row.matches (r : Row) (w : CmdWord) : Bool := w &&& r.mask == r.pattern

/-- The match and mask columns of the twelve commands (R68). -/
def commandRows : List Row :=
  [ ⟨"INIT", 0x10000000#32, 0xFFFF0000#32⟩, ⟨"SET_DUTY", 0x20000000#32, 0xFFF00000#32⟩,
    ⟨"SET_RAIL", 0x30000000#32, 0xFDF0FFFF#32⟩, ⟨"CLAIM", 0x40000000#32, 0xF3FF0000#32⟩,
    ⟨"ADVANCE", 0x50000000#32, 0xF1FFFFFF#32⟩, ⟨"RELEASE", 0x60000000#32, 0xF3FFFFFF#32⟩,
    ⟨"SET_TARGET", 0x70000000#32, 0xF3FF0000#32⟩, ⟨"SET_POSITION", 0x80000000#32, 0xF3FF0000#32⟩,
    ⟨"IS_AT_TARGET", 0x90000000#32, 0xF3FFFFFF#32⟩, ⟨"GET_POSITION", 0xA0000000#32, 0xF3FFFFFF#32⟩,
    ⟨"SET_SPEED", 0xB0000000#32, 0xF3FF0000#32⟩, ⟨"GET_SPEED", 0xC0000000#32, 0xF3FFFFFF#32⟩ ]

/-- The four reserved operation codes, as spec/opcode_table.json lists them (R74). -/
def reservedRows : List Row :=
  [ ⟨"RESERVED_0", 0x00000000#32, 0xF0000000#32⟩, ⟨"RESERVED_D", 0xD0000000#32, 0xF0000000#32⟩,
    ⟨"RESERVED_E", 0xE0000000#32, 0xF0000000#32⟩, ⟨"RESERVED_F", 0xF0000000#32, 0xF0000000#32⟩ ]

/-- The row of spec/opcode_table.json a command belongs to, by its mnemonic there. -/
def Instr.mnemonic : Instr → String
  | .init _ => "INIT"
  | .setDuty _ _ => "SET_DUTY"
  | .setRail _ _ => "SET_RAIL"
  | .claim _ _ => "CLAIM"
  | .advance _ _ => "ADVANCE"
  | .release _ => "RELEASE"
  | .setTarget _ _ => "SET_TARGET"
  | .setPosition _ _ => "SET_POSITION"
  | .isAtTarget _ => "IS_AT_TARGET"
  | .getPosition _ => "GET_POSITION"
  | .setSpeed _ _ => "SET_SPEED"
  | .getSpeed _ => "GET_SPEED"
  | .reserved0 _ => "RESERVED_0"
  | .reservedD _ => "RESERVED_D"
  | .reservedE _ => "RESERVED_E"
  | .reservedF _ => "RESERVED_F"

/-- What the decoder of R76 returns: the mnemonic of the first row that matches and the four operand fields, or
nothing for ILLEGAL. -/
structure RowHit where
  mnemonic : String
  mn : MotorNumber
  b : BitVec 1
  ch : Channel
  imm : Imm
  deriving DecidableEq, Repr

/-- `Decode(w)` as R76 writes it, over the rows with a match. -/
def decodeByRows (w : CmdWord) : Option RowHit :=
  (commandRows.find? (fun r => r.matches w)).map fun r =>
    { mnemonic := r.mnemonic, mn := w.extractLsb' 26 2, b := w.extractLsb' 25 1,
      ch := w.extractLsb' 16 4, imm := w.extractLsb' 0 16 }

/-- Whether a command is one of the four reserved operation codes (R74). -/
def Instr.isReserved : Instr → Bool
  | .init _ => false
  | .setDuty _ _ => false
  | .setRail _ _ => false
  | .claim _ _ => false
  | .advance _ _ => false
  | .release _ => false
  | .setTarget _ _ => false
  | .setPosition _ _ => false
  | .isAtTarget _ => false
  | .getPosition _ => false
  | .setSpeed _ _ => false
  | .getSpeed _ => false
  | .reserved0 _ => true
  | .reservedD _ => true
  | .reservedE _ => true
  | .reservedF _ => true

/-- Whether a command is INIT, the one command legal before initialisation (40_port R87). -/
def Instr.isInit : Instr → Bool
  | .init _ => true
  | .setDuty _ _ => false
  | .setRail _ _ => false
  | .claim _ _ => false
  | .advance _ _ => false
  | .release _ => false
  | .setTarget _ _ => false
  | .setPosition _ _ => false
  | .isAtTarget _ => false
  | .getPosition _ => false
  | .setSpeed _ _ => false
  | .getSpeed _ => false
  | .reserved0 _ => false
  | .reservedD _ => false
  | .reservedE _ => false
  | .reservedF _ => false

/-- The decoder on a word given as the opcode table numbers it: `nbits` bits, bit 0 the least significant, every
bit above `nbits` zero. A command is one word delivered whole (20_memory R53), so the word's bits are the table's. -/
def decodeTableWord (nbits w : Nat) : Option Instr :=
  match decode (BitVec.ofNat 32 (w % 2 ^ nbits)) with
  | .ok i => some i
  | .error _ => none

end Sys2Proof
end

