-- ==== Sys2Proof/Machine/Flags.lean ====
section
/-! DEFINITION. The flags of the engine (10_state R36): the fields of STATUS, read and written in one place. The
engine has no condition codes. CLAIMED, TGT_W and SPD_W are fields of a slot. -/

namespace Sys2Proof.Machine

/-- `STATUS.INIT_DONE`, bit 0 (10_state R24). -/
def State.initDone (s : State) : Bool := s.status.getLsbD 0

/-- `STATUS.FAULTED`, bit 1 (10_state R24); the engine is halted exactly when it is 1 (60_exceptions R143). -/
def State.faulted (s : State) : Bool := s.status.getLsbD 1

/-- `STATUS[3:2]`, reserved (10_state R24). -/
def State.statusReserved (s : State) : BitVec 2 := s.status.extractLsb' 2 2

/-- `STATUS.FCODE`, bits 7:4 (10_state R24). -/
def State.fcode (s : State) : BitVec 4 := s.status.extractLsb' 4 4

/-- STATUS from its fields (10_state R24). -/
def statusOf (code : BitVec 4) (rsv : BitVec 2) (faulted initDone : Bool) : BitVec 8 :=
  code ++ (rsv ++ (BitVec.ofBool faulted ++ BitVec.ofBool initDone))

/-- The number of a fault code (60_exceptions R141). -/
def FaultCode.bits : FaultCode → BitVec 4
  | .illegal => 1
  | .uninit => 2
  | .reinit => 3
  | .badSlot => 4
  | .unclaimed => 5
  | .range => 6
  | .div0 => 7
  | .unwritten => 8
  | .bus => 9

/-- `STATUS.INIT_DONE <- 1` (40_port R87). -/
def State.setInitDone (s : State) : State :=
  { s with status := statusOf s.fcode s.statusReserved s.faulted true }

/-- `STATUS.FAULTED <- 1; STATUS.FCODE <- code` (60_exceptions R143). -/
def State.setFault (s : State) (code : FaultCode) : State :=
  { s with status := statusOf code.bits s.statusReserved true s.initDone }

/-- STATUS as the host reads it: the reserved bits "read as 0" (10_state R24). -/
def State.statusRead (s : State) : BitVec 8 := statusOf s.fcode 0 s.faulted s.initDone

end Sys2Proof.Machine
end

