-- ==== Sys2Proof/Machine/Operands.lean ====
section
/-! DEFINITION. The operand forms (30_encoding R70 to R73): motor numbers to slots, immediates as naturals, and
results widened into RESP. -/

namespace Sys2Proof.Machine

/-- The slot a motor number names: s = MN − 1 for MN ∈ {1, 2}, none otherwise (30_encoding R70). -/
def slotOf (mn : MotorNumber) : Option SlotId :=
  if mn = 1 then some .slot0 else if mn = 2 then some .slot1 else none

/-- `zext_32` (00_scope R7): a result as RESP holds it (30_encoding R77). -/
def zext32 {n : Nat} (v : BitVec n) : BitVec 32 := v.setWidth 32

/-- A 12-bit duty as the operand of `SetDuty` (40_port R88, 41_motor_driver R109). -/
def dutyOperand (d : Duty) : Imm := d.setWidth 16

/-- The 0 or 1 of a Boolean result (30_encoding R77). -/
def boolResult (b : Bool) : BitVec 32 := if b then 1 else 0

end Sys2Proof.Machine
end

