-- ==== Sys2Proof/Machine/Ops.lean ====
section
/-! DEFINITION. The shared operations: registers and channels, the Port (20_memory R52, 40_port R88, R89), raising a
fault (60_exceptions R143, R146), completing a command, the order of checks (60_exceptions R145), reset. -/

namespace Sys2Proof.Machine

/-! ## Registers -/

/-- The registers of slot `k` (10_state R27). -/
def State.slot (s : State) : SlotId → Slot
  | .slot0 => s.slot0
  | .slot1 => s.slot1

/-- The state with the registers of slot `k` replaced. -/
def State.setSlot (s : State) (k : SlotId) (v : Slot) : State :=
  match k with
  | .slot0 => { s with slot0 := v }
  | .slot1 => { s with slot1 := v }

/-- The other slot. -/
def otherSlot : SlotId → SlotId
  | .slot0 => .slot1
  | .slot1 => .slot0

/-- `CHAN[ch]` (10_state R38). -/
def State.chanAt (s : State) (ch : Channel) : ChanValue := s.chan.get ⟨ch.toNat, ch.isLt⟩

/-- `CHAN` with one channel replaced. -/
def setChannel (c : Vector ChanValue 16) (ch : Channel) (v : ChanValue) : Vector ChanValue 16 :=
  c.set ch.toNat v ch.isLt

/-- The value the host gets from reading a register, zero-extended; a read is a function of the state and changes
nothing (10_state R26, 20_memory R58). -/
def State.hostRead (s : State) : HostReg → BitVec 32
  | .status => zext32 s.statusRead
  | .resp => s.resp
  | .fcmd => s.fcmd

/-! ## The Port -/

/-- The rail-high sentinel pair (40_port R90) is written with this on-time. -/
def railOn : Half := 4096

/-- The transaction of `SetDuty(ch, v)` (40_port R88): a value above 4095 saturates to the rail pair. -/
def dutyTransaction (ch : Channel) (v : Imm) : Transaction :=
  if v.toNat > dutyMax then .pwm ch railOn 0 else .pwm ch 0 (v.setWidth 13)

/-- The transaction of `SetRail(ch, high)` (40_port R89). -/
def railTransaction (ch : Channel) (high : Bool) : Transaction :=
  if high then .pwm ch railOn 0 else dutyTransaction ch 0

/-- What a transaction with its answer does to the shadow: an accepted PWM leaves the pair, a faulted one leaves the
channel unknown (20_memory R52, 60_exceptions R146). -/
def shadowAfter (c : Vector ChanValue 16) : Transaction → PortAnswer → Vector ChanValue 16
  | .busOpen _, _ => c
  | .freq _, _ => c
  | .pwm ch on off, .accepted => setChannel c ch (.pair on off)
  | .pwm ch _ _, .busFault => setChannel c ch .unknown

/-- The Port's answer to the next transaction: the oldest pending one; none listed reads as accepted. DESIGN CHOICE
(log 2). -/
def State.nextAnswer (s : State) : PortAnswer := s.answers.head?.getD .accepted

/-- `PortEmit(e)` (20_memory R52): `e` is appended to `OUT` whatever the answer, for it was attempted
(60_exceptions R146), and the answer is used up. -/
def portEmit (e : Transaction) (s : State) : State :=
  { s with out := s.out ++ [e], chan := shadowAfter s.chan e s.nextAnswer, answers := s.answers.tail }

/-- The transactions of one command in order, up to and with the first that a bus fault answers (60_exceptions
R146); with the answer to the last one emitted. -/
def emitAll : List Transaction → State → State × PortAnswer
  | [], s => (s, .accepted)
  | e :: rest, s =>
    match s.nextAnswer with
    | .accepted => emitAll rest (portEmit e s)
    | .busFault => (portEmit e s, .busFault)

/-! ## Faults and completion -/

/-- `raise Fault(code)` for the command word `w` (60_exceptions R142, R143): STATUS and FCMD record it, and FAULTED
halts the engine. RESP keeps its value and the command does not complete, so `pc` stands (log 12). -/
def raiseFault (code : FaultCode) (w : CmdWord) (s : State) : State :=
  { s.setFault code with fcmd := w }

/-- A command completes: it writes RESP (10_state R25) and the host's stream moves to the next command (R22). -/
def complete (resp : BitVec 32) (s : State) : State :=
  { s with resp := resp, pc := s.pc + 1 }

/-- The transactions of command `w`, then `finish`; a bus fault ends the command instead, with what it already did
standing (60_exceptions R146). -/
def transmit (w : CmdWord) (ts : List Transaction) (finish : State → State) (s : State) : State :=
  match emitAll ts s with
  | (t, .accepted) => finish t
  | (t, .busFault) => raiseFault .bus w t

/-- `Execute(w)` (60_exceptions R145): a halted engine takes no step; then the checks, in the order the caller lists
them; then the effect. Every check comes before the first write (60_exceptions R143). -/
def runCommand {α : Type} (w : CmdWord) (s : State) (checks : Except FaultCode α) (effect : α → Outcome) : Outcome :=
  if s.faulted then .fault .halted
  else
    match checks with
    | .error code => .next (raiseFault code w s)
    | .ok a => effect a

/-- "d is not INIT and INIT_DONE = 0: raise Fault(UNINIT)" (60_exceptions R145). -/
def initialised (s : State) : Except FaultCode Unit :=
  if s.initDone then .ok () else .error .uninit

/-- `ResolveSlot(mn)` (41_motor_driver R100): BAD_SLOT, then UNCLAIMED. -/
def resolveSlot (mn : MotorNumber) (s : State) : Except FaultCode SlotId :=
  match slotOf mn with
  | none => .error .badSlot
  | some k => if (s.slot k).claimed then .ok k else .error .unclaimed

/-- The checks every per-slot command but CLAIM begins with (60_exceptions R145). -/
def slotChecks (mn : MotorNumber) (s : State) : Except FaultCode SlotId :=
  match initialised s with
  | .error code => .error code
  | .ok _ => resolveSlot mn s

/-- An illegal word: `Fault(ILLEGAL)` and no other effect (30_encoding R74), before every check but the halted one
(60_exceptions R145). -/
def illegalCommand (w : CmdWord) (s : State) : Outcome :=
  runCommand w s (Except.error (α := Unit) .illegal) (fun _ => .next s)

/-! ## Reset -/

/-- Reset (70_reset R160, R161): every register at its reset value, no parameter changed, `CHAN` unwritten. It begins
a new run: `OUT` and `pc` start again (log 7). What the host and the Port still have pending stays. -/
def applyReset (s : State) : State :=
  { State.resetWith s.cfg with inputs := s.inputs, answers := s.answers }

end Sys2Proof.Machine
end

