-- ==== Sys2Proof/Machine/Driver.lean ====
section
/-! DEFINITION. The motor driver commands (41_motor_driver R105 to R121). -/

namespace Sys2Proof.Machine

/-! ## CLAIM -/

/-- The slot a CLAIM configures: the one `mn` names, if it is unclaimed, or if it is slot 0 and SLOT0_REARM is true
(R105, R107); none for a null handle (R108) and for an ignored repeat. -/
def claimTarget (mn : MotorNumber) (s : State) : Option SlotId :=
  match slotOf mn with
  | none => none
  | some k =>
    if (s.slot k).claimed && !(s.cfg.slot0Rearm && decide (k = .slot0)) then none else some k

/-- The handle a CLAIM returns: MN for MN ∈ {1, 2}, null otherwise (30_encoding R77, R108). -/
def claimHandle (mn : MotorNumber) : BitVec 32 :=
  match slotOf mn with
  | none => 0
  | some _ => zext32 mn

/-- A revolution length the engine refuses: `S = 0 or S × M > 65536` (R106). -/
def badRevolution (c : Config) (steps : Imm) : Bool :=
  decide (steps = 0) || decide (steps.toNat * c.m > 65536)

/-- The checks of CLAIM: UNINIT, then RANGE when a slot is being configured (R105, R106). -/
def claimChecks (mn : MotorNumber) (steps : Imm) (s : State) : Except FaultCode (Option SlotId) :=
  match initialised s with
  | .error code => .error code
  | .ok _ =>
    match claimTarget mn s with
    | none => .ok none
    | some k => if badRevolution s.cfg steps then .error .range else .ok (some k)

/-- `CLAIMED[s] <- 1; NREV[s] <- S × M` (R105). -/
def configureSlot (k : SlotId) (steps : Imm) (s : State) : State :=
  s.setSlot k { s.slot k with claimed := true, nrev := BitVec.ofNat 17 (steps.toNat * s.cfg.m) }

/-- CLAIM (R105). -/
def execClaim (mn : MotorNumber) (steps : Imm) (s : State) : Outcome :=
  runCommand (encode (.claim mn steps)) s (claimChecks mn steps s) fun
    | none => .next (complete (claimHandle mn) s)
    | some k => .next (complete (claimHandle mn) (configureSlot k steps s))

/-! ## ADVANCE and RELEASE -/

/-- The six transactions of ADVANCE, in order (R112): coil A, coil B, then the lines in latch-bit order. -/
def advanceTransactions (p : Pins) (e : Excitation) : List Transaction :=
  [ dutyTransaction p.pwma (dutyOperand e.dA),
    dutyTransaction p.pwmb (dutyOperand e.dB),
    railTransaction p.ain2 (e.latch.getLsbD 0),
    railTransaction p.bin1 (e.latch.getLsbD 1),
    railTransaction p.ain1 (e.latch.getLsbD 2),
    railTransaction p.bin2 (e.latch.getLsbD 3) ]

/-- ADVANCE (R109): PHASE and POS move first, so a bus fault leaves them moved (60_exceptions R146). -/
def execAdvance (mn : MotorNumber) (dir : Direction) (s : State) : Outcome :=
  runCommand (encode (.advance mn dir)) s (slotChecks mn s) fun k =>
    let v := moveSlot s.cfg dir (s.slot k)
    match excite s.cfg v.phase.toNat with
    | none => .refused .tableIndex
    | some e =>
      .next (transmit (encode (.advance mn dir)) (advanceTransactions (s.cfg.pins k) e)
        (complete (zext32 v.pos)) (s.setSlot k v))

/-- The six transactions of RELEASE, in order: rails low, then duties zero (R115). -/
def releaseTransactions (p : Pins) : List Transaction :=
  [ railTransaction p.ain1 false, railTransaction p.ain2 false,
    railTransaction p.bin1 false, railTransaction p.bin2 false,
    dutyTransaction p.pwma 0, dutyTransaction p.pwmb 0 ]

/-- RELEASE (R115). -/
def execRelease (mn : MotorNumber) (s : State) : Outcome :=
  runCommand (encode (.release mn)) s (slotChecks mn s) fun k =>
    .next (transmit (encode (.release mn)) (releaseTransactions (s.cfg.pins k)) (complete 0) s)

/-! ## Target and position -/

/-- SET_TARGET (R116): every p is legal. -/
def execSetTarget (mn : MotorNumber) (p : Imm) (s : State) : Outcome :=
  runCommand (encode (.setTarget mn p)) s (slotChecks mn s) fun k =>
    .next (complete 0 (s.setSlot k { s.slot k with target := p, tgtW := true }))

/-- The checks of SET_POSITION: the slot, then `p ≥ NREV[s]` raises RANGE (R117). -/
def setPositionChecks (mn : MotorNumber) (p : Imm) (s : State) : Except FaultCode SlotId :=
  match slotChecks mn s with
  | .error code => .error code
  | .ok k => if p.toNat ≥ (s.slot k).nrev.toNat then .error .range else .ok k

/-- SET_POSITION (R117): PHASE and the coils stay. -/
def execSetPosition (mn : MotorNumber) (p : Imm) (s : State) : Outcome :=
  runCommand (encode (.setPosition mn p)) s (setPositionChecks mn p s) fun k =>
    .next (complete 0 (s.setSlot k { s.slot k with pos := p }))

/-- The checks of IS_AT_TARGET: the slot, then `TGT_W[s] = 0` raises UNWRITTEN (R118). -/
def isAtTargetChecks (mn : MotorNumber) (s : State) : Except FaultCode SlotId :=
  match slotChecks mn s with
  | .error code => .error code
  | .ok k => if (s.slot k).tgtW then .ok k else .error .unwritten

/-- IS_AT_TARGET (R118): exact equality. -/
def execIsAtTarget (mn : MotorNumber) (s : State) : Outcome :=
  runCommand (encode (.isAtTarget mn)) s (isAtTargetChecks mn s) fun k =>
    .next (complete (boolResult (decide ((s.slot k).pos = (s.slot k).target))) s)

/-- GET_POSITION (R119). -/
def execGetPosition (mn : MotorNumber) (s : State) : Outcome :=
  runCommand (encode (.getPosition mn)) s (slotChecks mn s) fun k =>
    .next (complete (zext32 (s.slot k).pos) s)

/-! ## Speed -/

/-- The checks of SET_SPEED: the slot, then `rpm = 0` raises DIV0 (R120). -/
def setSpeedChecks (mn : MotorNumber) (rpm : Imm) (s : State) : Except FaultCode SlotId :=
  match slotChecks mn s with
  | .error code => .error code
  | .ok k => if rpm = 0 then .error .div0 else .ok k

/-- `60000000 div (NREV[s] × rpm)`, exact and truncating (R120); by an empty revolution, a free value (log 11). -/
def speedInterval (nrev : BitVec 17) (rpm : Imm) : BitVec 32 :=
  let product := nrev.toNat * rpm.toNat
  BitVec.ofNat 32 (if product = 0 then Config.byZero 60000000 else 60000000 / product)

/-- SET_SPEED (R120): storage only (R122). -/
def execSetSpeed (mn : MotorNumber) (rpm : Imm) (s : State) : Outcome :=
  runCommand (encode (.setSpeed mn rpm)) s (setSpeedChecks mn rpm s) fun k =>
    .next (complete 0
      (s.setSlot k { s.slot k with speed := speedInterval (s.slot k).nrev rpm, spdW := true }))

/-- The checks of GET_SPEED: the slot, then `SPD_W[s] = 0` raises UNWRITTEN (R121). -/
def getSpeedChecks (mn : MotorNumber) (s : State) : Except FaultCode SlotId :=
  match slotChecks mn s with
  | .error code => .error code
  | .ok k => if (s.slot k).spdW then .ok k else .error .unwritten

/-- GET_SPEED (R121): the interval, not the rpm. -/
def execGetSpeed (mn : MotorNumber) (s : State) : Outcome :=
  runCommand (encode (.getSpeed mn)) s (getSpeedChecks mn s) fun k =>
    .next (complete (s.slot k).speed s)

end Sys2Proof.Machine
end

