-- ==== Sys2Proof/Machine/Port.lean ====
section
/-! DEFINITION. The Port commands INIT, SET_DUTY and SET_RAIL (40_port). -/

namespace Sys2Proof.Machine

/-- The sixteen channels in ascending order (40_port R87). -/
def allChannels : List Channel := [0, 1, 2, 3, 4, 5, 6, 7, 8, 9, 10, 11, 12, 13, 14, 15]

/-- The sixteen resets of INIT: `SetDuty(ch, 0)` for ascending ch (40_port R87). -/
def resetTransactions : List Transaction := allChannels.map (fun ch => dutyTransaction ch 0)

/-- The transactions of INIT in the order the parameter INIT_ORDER gives (40_port R87). -/
def initTransactions (c : Config) (f : Imm) : List Transaction :=
  .busOpen c.busAddr ::
    match c.initOrder with
    | .resetThenFreq => resetTransactions ++ [.freq f]
    | .freqThenReset => .freq f :: resetTransactions

/-- The checks of INIT: REINIT, then RANGE for f = 0 (40_port R87, 60_exceptions R145). -/
def initChecks (f : Imm) (s : State) : Except FaultCode Unit :=
  if s.initDone then .error .reinit else if f = 0 then .error .range else .ok ()

/-- INIT (40_port R87). INIT_DONE is written after the transactions, so a bus fault leaves it 0 (log 14). -/
def execInit (f : Imm) (s : State) : Outcome :=
  runCommand (encode (.init f)) s (initChecks f s) fun _ =>
    .next (transmit (encode (.init f)) (initTransactions s.cfg f) (fun t => complete 0 t.setInitDone) s)

/-- SET_DUTY (40_port R92): no check of the channel against PIN_MAP (R94). -/
def execSetDuty (ch : Channel) (v : Imm) (s : State) : Outcome :=
  runCommand (encode (.setDuty ch v)) s (initialised s) fun _ =>
    .next (transmit (encode (.setDuty ch v)) [dutyTransaction ch v] (complete 0) s)

/-- SET_RAIL (40_port R93): no check of the channel against PIN_MAP (R94). -/
def execSetRail (ch : Channel) (high : Bool) (s : State) : Outcome :=
  runCommand (encode (.setRail ch high)) s (initialised s) fun _ =>
    .next (transmit (encode (.setRail ch high)) [railTransaction ch high] (complete 0) s)

end Sys2Proof.Machine
end

