-- ==== Sys2Proof/Machine/Reserved.lean ====
section
/-! DEFINITION. The four reserved operation codes: every word raises Fault(ILLEGAL) (30_encoding R74). -/

namespace Sys2Proof.Machine

/-- A word whose OPC is 0x0 (30_encoding R74). -/
def execReserved0 (low : BitVec 28) (s : State) : Outcome := illegalCommand (encode (.reserved0 low)) s

/-- A word whose OPC is 0xD (30_encoding R74). -/
def execReservedD (low : BitVec 28) (s : State) : Outcome := illegalCommand (encode (.reservedD low)) s

/-- A word whose OPC is 0xE (30_encoding R74). -/
def execReservedE (low : BitVec 28) (s : State) : Outcome := illegalCommand (encode (.reservedE low)) s

/-- A word whose OPC is 0xF (30_encoding R74). -/
def execReservedF (low : BitVec 28) (s : State) : Outcome := illegalCommand (encode (.reservedF low)) s

end Sys2Proof.Machine
end

