-- ==== Sys2Proof/Machine/Dispatch.lean ====
section
/-! DEFINITION. One arm per command (30_encoding R68). -/

namespace Sys2Proof.Machine

def exec (i : Instr) (s : State) : Host.Outcome State Fault Refusal :=
  match i with
  | .init f => Sys2Proof.Machine.execInit f s
  | .setDuty ch v => Sys2Proof.Machine.execSetDuty ch v s
  | .setRail ch high => Sys2Proof.Machine.execSetRail ch high s
  | .claim mn steps => Sys2Proof.Machine.execClaim mn steps s
  | .advance mn dir => Sys2Proof.Machine.execAdvance mn dir s
  | .release mn => Sys2Proof.Machine.execRelease mn s
  | .setTarget mn p => Sys2Proof.Machine.execSetTarget mn p s
  | .setPosition mn p => Sys2Proof.Machine.execSetPosition mn p s
  | .isAtTarget mn => Sys2Proof.Machine.execIsAtTarget mn s
  | .getPosition mn => Sys2Proof.Machine.execGetPosition mn s
  | .setSpeed mn rpm => Sys2Proof.Machine.execSetSpeed mn rpm s
  | .getSpeed mn => Sys2Proof.Machine.execGetSpeed mn s
  | .reserved0 low => Sys2Proof.Machine.execReserved0 low s
  | .reservedD low => Sys2Proof.Machine.execReservedD low s
  | .reservedE low => Sys2Proof.Machine.execReservedE low s
  | .reservedF low => Sys2Proof.Machine.execReservedF low s

end Sys2Proof.Machine
end

