-- ==== Sys2Proof/Machine/Fetch.lean ====
section
/-! DEFINITION. The host port: which pending interaction the next step serves (70_reset R174). The engine fetches
nothing from memory (10_state R22); the next command is the next word the host wrote. -/

namespace Sys2Proof.Machine

/-- What the next step serves. -/
inductive Served where
  /-- Nothing is pending, or the host read a register, or a reset took place: the state after it. -/
  | settled (s : State)
  /-- The command word to execute, in the state with that word taken from the host. -/
  | execute (w : CmdWord) (s : State)
  /-- A command word at a halted engine, with no reset pending. -/
  | stuck

/-- The host's inputs after the first pending reset, if there is one. -/
def afterReset : List HostInput → Option (List HostInput)
  | [] => none
  | .reset :: rest => some rest
  | .command _ :: rest => afterReset rest
  | .read _ :: rest => afterReset rest

/-- The next interaction. With none pending the engine waits, holding all state (60_exceptions R154). A read changes
no register (10_state R26). A command word written to a halted engine has no step, and only reset ends the halt
(60_exceptions R143, R144): the words before the next reset are passed over, and with no reset pending there is no
step (log 6). -/
def serve (s : State) : Served :=
  match s.inputs with
  | [] => .settled s
  | .read _ :: rest => .settled { s with inputs := rest }
  | .reset :: rest => .settled (applyReset { s with inputs := rest })
  | .command w :: rest =>
    if s.faulted then
      match afterReset rest with
      | none => .stuck
      | some later => .settled (applyReset { s with inputs := later })
    else .execute w { s with inputs := rest }

/-- The command word given as the opcode table numbers it, written by the host as its next interaction. -/
def hostWrites (s : State) (w : CmdWord) : State := { s with inputs := .command w :: s.inputs }

end Sys2Proof.Machine
end

