-- ==== Sys2Proof/Machine/Step.lean ====
section
/-! DEFINITION. One step: the next interaction of the host, and for a command word its decoding and execution
(60_exceptions R145). -/

namespace Sys2Proof.Machine

/-- One step of the machine: one whole command, to completion or to its fault (10_state R21, 92 D2), or one reset,
or one register read, or waiting. -/
def step (s : State) : Host.Outcome State Fault Refusal :=
  match serve s with
  | .settled t => .next t
  | .stuck => .fault .halted
  | .execute w t =>
    match decode w with
    | .ok i => exec i t
    | .error _ => illegalCommand w t

/-- `s` with the word as the host's next interaction, so that `step` executes it (log 1). -/
def State.withFetchWord (s : State) (nbits w : Nat) : State :=
  hostWrites s (BitVec.ofNat 32 (w % 2 ^ nbits))

end Sys2Proof.Machine
end

