-- ==== Sys2Proof/Machine/Asm.lean ====
section
/-! DEFINITION. The assembler (30_encoding R80, R82): lines with their operands, the check that makes an operand an
assembly error, the pseudo-instructions and `.rep`, and the text form. It is the host's; the engine sees the words. -/

namespace Sys2Proof.Machine

/-- One line of assembler, with the operands as written (R80), and the pseudo-instructions (R82). -/
inductive AsmLine where
  | init (f : Option Nat)
  | setDuty (ch v : Nat)
  | setRail (ch : Nat) (high : Bool)
  | claim (mn steps : Nat)
  | advance (mn : Nat) (dir : Direction)
  | release (mn : Nat)
  | setTarget (mn p : Nat)
  | setPosition (mn p : Nat)
  | isAtTarget (mn : Nat)
  | getPosition (mn : Nat)
  | setSpeed (mn rpm : Nat)
  | getSpeed (mn : Nat)
  | stepF (mn : Nat)
  | stepB (mn : Nat)
  | railHi (ch : Nat)
  | railLo (ch : Nat)
  deriving DecidableEq, Repr

/-- A line, or one of the directives that repeat the lines between them (R82). -/
inductive AsmItem where
  | line (l : AsmLine)
  | rep (n : Nat)
  | endRep
  deriving DecidableEq, Repr

/-- The host-side default of INIT (R82; 00_scope R5). -/
def defaultFrequency : Nat := 1600

/-- The expansion of the pseudo-instructions (R82); a command is its own. -/
def AsmLine.expand : AsmLine → AsmLine
  | .init none => .init (some defaultFrequency)
  | .stepF mn => .advance mn .forward
  | .stepB mn => .advance mn .backward
  | .railHi ch => .setRail ch true
  | .railLo ch => .setRail ch false
  | .init (some f) => .init (some f)
  | .setDuty ch v => .setDuty ch v
  | .setRail ch high => .setRail ch high
  | .claim mn steps => .claim mn steps
  | .advance mn dir => .advance mn dir
  | .release mn => .release mn
  | .setTarget mn p => .setTarget mn p
  | .setPosition mn p => .setPosition mn p
  | .isAtTarget mn => .isAtTarget mn
  | .getPosition mn => .getPosition mn
  | .setSpeed mn rpm => .setSpeed mn rpm
  | .getSpeed mn => .getSpeed mn

/-- A motor number the assembler accepts: 0..3 (R80). -/
def asmMotor (mn : Nat) : Option MotorNumber := if mn < 4 then some (BitVec.ofNat 2 mn) else none

/-- A channel the assembler accepts: 0..15 (R80). -/
def asmChannel (ch : Nat) : Option Channel := if ch < 16 then some (BitVec.ofNat 4 ch) else none

/-- An immediate the assembler accepts: every 16-bit value (R80). -/
def asmImm (v : Nat) : Option Imm := if v < 65536 then some (BitVec.ofNat 16 v) else none

/-- The command of a line, or an assembly error for an operand out of range (R80, R82). -/
def AsmLine.command (l : AsmLine) : Option Instr :=
  match l.expand with
  | .init f => (asmImm (f.getD defaultFrequency)).map .init
  | .setDuty ch v => do return .setDuty (← asmChannel ch) (← asmImm v)
  | .setRail ch high => (asmChannel ch).map (fun c => .setRail c high)
  | .claim mn steps => do return .claim (← asmMotor mn) (← asmImm steps)
  | .advance mn dir => (asmMotor mn).map (fun m => .advance m dir)
  | .release mn => (asmMotor mn).map .release
  | .setTarget mn p => do return .setTarget (← asmMotor mn) (← asmImm p)
  | .setPosition mn p => do return .setPosition (← asmMotor mn) (← asmImm p)
  | .isAtTarget mn => (asmMotor mn).map .isAtTarget
  | .getPosition mn => (asmMotor mn).map .getPosition
  | .setSpeed mn rpm => do return .setSpeed (← asmMotor mn) (← asmImm rpm)
  | .getSpeed mn => (asmMotor mn).map .getSpeed
  | .stepF mn => (asmMotor mn).map (fun m => .advance m .forward)
  | .stepB mn => (asmMotor mn).map (fun m => .advance m .backward)
  | .railHi ch => (asmChannel ch).map (fun c => .setRail c true)
  | .railLo ch => (asmChannel ch).map (fun c => .setRail c false)

/-- `n` textual copies of a block (R82). -/
def copies {α : Type} : Nat → List α → List α
  | 0, _ => []
  | n + 1, block => block ++ copies n block

/-- The lines with every `.rep n ... .endr` replaced by its copies (R82). The stack holds the open blocks, innermost
first, each with its count and its lines so far; a directive that does not pair up is an assembly error (log 16). -/
def unroll : List AsmItem → List (Nat × List AsmLine) → List AsmLine → Option (List AsmLine)
  | [], [], done => some done
  | [], _ :: _, _ => none
  | .line l :: rest, [], done => unroll rest [] (done ++ [l])
  | .line l :: rest, (n, block) :: outer, done => unroll rest ((n, block ++ [l]) :: outer) done
  | .rep n :: rest, stack, done => unroll rest ((n, []) :: stack) done
  | .endRep :: _, [], _ => none
  | .endRep :: rest, (n, block) :: [], done => unroll rest [] (done ++ copies n block)
  | .endRep :: rest, (n, block) :: (k, outer) :: stack, done =>
    unroll rest ((k, outer ++ copies n block) :: stack) done

/-- Every element's image, or none if one has none. -/
def allSome {α β : Type} (f : α → Option β) : List α → Option (List β)
  | [] => some []
  | a :: rest => do return (← f a) :: (← allSome f rest)

/-- The command words of a program (R80, R82). -/
def assemble (items : List AsmItem) : Option (List CmdWord) := do
  let lines ← unroll items [] []
  let commands ← allSome AsmLine.command lines
  return commands.map encode

/-! ## The text form -/

/-- The value of a hexadecimal digit; the decimal digits are the ones below 10 (R80). -/
def digitValue (c : Char) : Option Nat :=
  if '0'.toNat ≤ c.toNat ∧ c.toNat ≤ '9'.toNat then some (c.toNat - '0'.toNat)
  else if 'a'.toNat ≤ c.toNat ∧ c.toNat ≤ 'f'.toNat then some (c.toNat - 'a'.toNat + 10)
  else if 'A'.toNat ≤ c.toNat ∧ c.toNat ≤ 'F'.toNat then some (c.toNat - 'A'.toNat + 10)
  else none

/-- The number a list of digits writes in a base, from the value of the digits before it. -/
def digitsValue (base : Nat) : List Char → Nat → Option Nat
  | [], acc => some acc
  | c :: rest, acc =>
    match digitValue c with
    | none => none
    | some d => if d < base then digitsValue base rest (acc * base + d) else none

/-- A number, decimal or `0x` hexadecimal (R80). -/
def asmNumber : List Char → Option Nat
  | [] => none
  | '0' :: 'x' :: [] => none
  | '0' :: 'x' :: d :: rest => digitsValue 16 (d :: rest) 0
  | c :: rest => digitsValue 10 (c :: rest) 0

/-- White space within a line. -/
def isBlank (c : Char) : Bool := c == ' ' || c == '\t' || c == '\r'

/-- A piece of a line without the white space around it. -/
def trim (s : List Char) : List Char := ((s.dropWhile isBlank).reverse.dropWhile isBlank).reverse

/-- The pieces of a list between the separators, from the piece read so far. -/
def splitAtChar (sep : Char) : List Char → List Char → List (List Char)
  | [], piece => [piece]
  | c :: rest, piece => if c = sep then piece :: splitAtChar sep rest [] else splitAtChar sep rest (piece ++ [c])

/-- A line without its comment, which `;` starts (R80). -/
def withoutComment (s : List Char) : List Char := s.takeWhile (fun c => c != ';')

/-- The comma-separated operands after the mnemonic; none for an empty text (R80). -/
def asmOperands (s : List Char) : List (List Char) :=
  if (trim s).isEmpty then [] else (splitAtChar ',' s []).map trim

/-- `HI` or `LO` (R80). -/
def asmLevel (s : List Char) : Option Bool :=
  if String.ofList s = "HI" then some true else if String.ofList s = "LO" then some false else none

/-- `FWD` or `BWD` (R80). -/
def asmDirection (s : List Char) : Option Direction :=
  if String.ofList s = "FWD" then some .forward else if String.ofList s = "BWD" then some .backward else none

/-- A mnemonic with its operands (R80, R82); anything else is an assembly error. -/
def asmItem (mnemonic : String) (ops : List (List Char)) : Option AsmItem :=
  match mnemonic, ops with
  | "INIT", [] => some (.line (.init none))
  | "INIT", [f] => do return .line (.init (some (← asmNumber f)))
  | "SET_DUTY", [ch, v] => do return .line (.setDuty (← asmNumber ch) (← asmNumber v))
  | "SET_RAIL", [ch, level] => do return .line (.setRail (← asmNumber ch) (← asmLevel level))
  | "CLAIM", [mn, steps] => do return .line (.claim (← asmNumber mn) (← asmNumber steps))
  | "ADVANCE", [mn, dir] => do return .line (.advance (← asmNumber mn) (← asmDirection dir))
  | "RELEASE", [mn] => do return .line (.release (← asmNumber mn))
  | "SET_TARGET", [mn, p] => do return .line (.setTarget (← asmNumber mn) (← asmNumber p))
  | "SET_POSITION", [mn, p] => do return .line (.setPosition (← asmNumber mn) (← asmNumber p))
  | "IS_AT_TARGET", [mn] => do return .line (.isAtTarget (← asmNumber mn))
  | "GET_POSITION", [mn] => do return .line (.getPosition (← asmNumber mn))
  | "SET_SPEED", [mn, rpm] => do return .line (.setSpeed (← asmNumber mn) (← asmNumber rpm))
  | "GET_SPEED", [mn] => do return .line (.getSpeed (← asmNumber mn))
  | "STEPF", [mn] => do return .line (.stepF (← asmNumber mn))
  | "STEPB", [mn] => do return .line (.stepB (← asmNumber mn))
  | "RAILHI", [ch] => do return .line (.railHi (← asmNumber ch))
  | "RAILLO", [ch] => do return .line (.railLo (← asmNumber ch))
  | ".rep", [n] => do return .rep (← asmNumber n)
  | ".endr", [] => some .endRep
  | _, _ => none

/-- One line of text: nothing for a blank line or a comment, else its item (R80). -/
def asmTextLine (s : List Char) : Option (List AsmItem) :=
  let body := trim (withoutComment s)
  if body.isEmpty then some []
  else
    let word := body.takeWhile (fun c => !isBlank c)
    (asmItem (String.ofList word) (asmOperands (body.drop word.length))).map (fun i => [i])

/-- The command words of a text, one command per line (R80, R82); none is an assembly error. -/
def assembleText (text : String) : Option (List CmdWord) := do
  let items ← allSome asmTextLine (splitAtChar '\n' text.toList [])
  assemble items.flatten

end Sys2Proof.Machine
end

