-- ==== Sys2Proof/Safety.lean ====
section
/-! DEFINITION. What a good run is (70_reset R173), the conditions under which the rules describe a command's
effect (60_exceptions R145, R146), the frames of statements, and the invariants of reachable states. -/

namespace Sys2Proof.Machine

/-! ## Conditions -/

/-- A state of a good run: no fault (70_reset R173, 60_exceptions R143). -/
def State.Good (s : State) : Prop := s.faulted = false

/-- The common checks pass for a command that is not INIT: not halted, initialised (60_exceptions R145). -/
def State.Ready (s : State) : Prop := s.faulted = false ∧ s.initDone = true

/-- `mn` names slot `k` and the slot is claimed: `ResolveSlot(mn)` returns k (41_motor_driver R100). -/
def State.Resolves (s : State) (mn : MotorNumber) (k : SlotId) : Prop :=
  slotOf mn = some k ∧ (s.slot k).claimed = true

/-- The Port answers none of the next `n` transactions with a bus fault (60_exceptions R146). -/
def State.PortAccepts (s : State) (n : Nat) : Prop := ∀ a ∈ s.answers.take n, a = PortAnswer.accepted

/-- The Port accepts `j` transactions and answers the next with a bus fault (60_exceptions R146). -/
def State.PortFaultsAfter (s : State) (j : Nat) : Prop :=
  s.PortAccepts j ∧ s.answers[j]? = some PortAnswer.busFault

/-! ## Frames: what stays -/

/-- STATUS and FCMD stay. -/
def SameFaultRegs (s t : State) : Prop := t.status = s.status ∧ t.fcmd = s.fcmd

/-- The Port stays: no transaction, no channel changed, no answer used. -/
def SamePort (s t : State) : Prop := t.out = s.out ∧ t.chan = s.chan ∧ t.answers = s.answers

/-- The instance's parameters and the host's pending inputs stay. -/
def SameOutside (s t : State) : Prop := t.cfg = s.cfg ∧ t.inputs = s.inputs

/-- Both slots stay. -/
def SameSlots (s t : State) : Prop := t.slot0 = s.slot0 ∧ t.slot1 = s.slot1

/-- A command completed with the result `v` and touched, of the rest, at most slots and the Port. -/
def CompletesWith (v : BitVec 32) (s t : State) : Prop :=
  t.resp = v ∧ t.pc = s.pc + 1 ∧ SameOutside s t

/-- The Port took the transactions `ts`: they were appended to OUT, and each used one answer (20_memory R52, R59). -/
def Emitted (ts : List Transaction) (s t : State) : Prop :=
  t.out = s.out ++ ts ∧ t.answers = s.answers.drop ts.length

/-! ## Faults -/

/-- What raising a fault records, and what it leaves of the rest: STATUS and FCMD record it, RESP and the position in
the host's stream stay (60_exceptions R142, R143; that position DEDUCED from 10_state R22, log 12). -/
def RaisedFault (code : FaultCode) (w : CmdWord) (s t : State) : Prop :=
  t.faulted = true ∧ t.fcode = code.bits ∧ t.fcmd = w ∧ t.initDone = s.initDone ∧
  t.statusReserved = s.statusReserved ∧ t.resp = s.resp ∧ t.pc = s.pc ∧ SameOutside s t

/-- The command raises the fault and changes nothing but STATUS and FCMD (60_exceptions R143: faults 1 to 8). -/
def RaisesPrecisely (code : FaultCode) (i : Instr) (s : State) : Prop :=
  ∃ t, exec i s = .next t ∧ RaisedFault code (encode i) s t ∧ SameSlots s t ∧ SamePort s t

/-- The command's transactions were `ts`, the Port accepted `j` of them and answered the next with a bus fault, and
the command ended there (60_exceptions R146): those and the faulting one stand in OUT, the shadow of the faulting
one's channel is unknown, a channel that an accepted one wrote last holds its pair, every other channel stands, no
later one was emitted, RESP was not written. -/
def EndedByBusFault (w : CmdWord) (ts : List Transaction) (j : Nat) (s t : State) : Prop :=
  RaisedFault .bus w s t ∧ t.out = s.out ++ ts.take (j + 1) ∧ t.answers = s.answers.drop (j + 1) ∧
  (∀ ch on off, ts[j]? = some (.pwm ch on off) → t.chanAt ch = .unknown) ∧
  (∀ n ch on off, n < j → ts[n]? = some (.pwm ch on off) →
    (∀ e ∈ (ts.take (j + 1)).drop (n + 1), ∀ on' off', e ≠ .pwm ch on' off') → t.chanAt ch = .pair on off) ∧
  (∀ ch, (∀ e ∈ ts.take (j + 1), ∀ on off, e ≠ .pwm ch on off) → t.chanAt ch = s.chanAt ch)

/-! ## ADVANCE as its tables write it -/

/-- The on-time of a rail (40_port R89). -/
def railHalf (high : Bool) : Half := if high then 4096 else 0

/-- Coil A's table index by the remainder form of 41_motor_driver R102: with r = p − qM, (M − r) in quadrants 0 and 2,
r in quadrants 1 and 3. -/
def coilIndexA (m p : Nat) : Nat := if (p / m) % 2 = 0 then m - p % m else p % m

/-- Coil B's table index by the same form. -/
def coilIndexB (m p : Nat) : Nat := if (p / m) % 2 = 0 then p % m else m - p % m

/-- The six transactions of an ADVANCE that lands on phase `p` with duties `dA` and `dB` (41_motor_driver R112), the
lines by the columns of R103: AIN2 in quadrants 0 and 3, BIN1 in 0 and 1, AIN1 in 1 and 2, BIN2 in 2 and 3. -/
def advanceWrites (c : Config) (k : SlotId) (p : Nat) (dA dB : Duty) : List Transaction :=
  let q := p / c.m
  [ .pwm (c.pins k).pwma 0 (dA.setWidth 13),
    .pwm (c.pins k).pwmb 0 (dB.setWidth 13),
    .pwm (c.pins k).ain2 (railHalf (decide (q = 0 ∨ q = 3))) 0,
    .pwm (c.pins k).bin1 (railHalf (decide (q = 0 ∨ q = 1))) 0,
    .pwm (c.pins k).ain1 (railHalf (decide (q = 1 ∨ q = 2))) 0,
    .pwm (c.pins k).bin2 (railHalf (decide (q = 2 ∨ q = 3))) 0 ]

/-- One step of a counter of length `n` in closed form (41_motor_driver R110, R111). -/
def advanced (dir : Direction) (n x : Nat) : Nat :=
  match dir with
  | .forward => (x + 1) % n
  | .backward => (x + n - 1) % n

/-- The motor number of a per-slot command other than CLAIM (41_motor_driver R100). -/
def slotOperand : Instr → Option MotorNumber
  | .init _ => none
  | .setDuty _ _ => none
  | .setRail _ _ => none
  | .claim _ _ => none
  | .advance mn _ => some mn
  | .release mn => some mn
  | .setTarget mn _ => some mn
  | .setPosition mn _ => some mn
  | .isAtTarget mn => some mn
  | .getPosition mn => some mn
  | .setSpeed mn _ => some mn
  | .getSpeed mn => some mn
  | .reserved0 _ => none
  | .reservedD _ => none
  | .reservedE _ => none
  | .reservedF _ => none

/-- The slot a command names, CLAIM's among them (30_encoding R70). -/
def namedSlot : Instr → Option SlotId
  | .claim mn _ => slotOf mn
  | i => (slotOperand i).bind slotOf

/-! ## The channel shadow as a function of the transaction stream (10_state R38) -/

/-- A shadow after accepted transactions. -/
def acceptAll (c : Vector ChanValue 16) (ts : List Transaction) : Vector ChanValue 16 :=
  ts.foldl (fun c e => shadowAfter c e .accepted) c

/-- The shadow that a stream of accepted transactions leaves after reset. -/
def replay (ts : List Transaction) : Vector ChanValue 16 := acceptAll (Vector.replicate 16 .unwritten) ts

/-- One channel of a shadow. -/
def shadowAt (c : Vector ChanValue 16) (ch : Channel) : ChanValue := c.get ⟨ch.toNat, ch.isLt⟩

/-! ## The bridge lines in the shadow (41_motor_driver R103, 70_reset R165) -/

/-- The channel stands at a rail: high as (4096, 0), low as (0, 0) (40_port R89). -/
abbrev AtRail (c : Vector ChanValue 16) (ch : Channel) (high : Bool) : Prop := shadowAt c ch = .pair (railHalf high) 0

/-- The slot's four lines stand at the latch of quadrant `q`, by the columns of 41_motor_driver R103. -/
abbrev LinesAt (p : Pins) (q : Nat) (c : Vector ChanValue 16) : Prop :=
  AtRail c p.ain1 (decide (q = 1 ∨ q = 2)) ∧ AtRail c p.ain2 (decide (q = 0 ∨ q = 3)) ∧
  AtRail c p.bin1 (decide (q = 0 ∨ q = 1)) ∧ AtRail c p.bin2 (decide (q = 2 ∨ q = 3))

/-- Both lines of a pair stand at one level. -/
abbrev PairLevel (c : Vector ChanValue 16) (one two : Channel) (high : Bool) : Prop := AtRail c one high ∧ AtRail c two high

/-- The two lines of a pair stand at different levels. -/
abbrev PairOpposed (c : Vector ChanValue 16) (one two : Channel) : Prop := ∃ high, AtRail c one high ∧ AtRail c two (!high)

/-- A row of the table of 70_reset R165: the quadrants left and entered, the direction, whether the pair is A, and the
level both its lines stand at. -/
structure Transition where
  left : Nat
  entered : Nat
  dir : Direction
  pairA : Bool
  level : Bool
  deriving DecidableEq, Repr

/-- The table of 70_reset R165. -/
def transitions : List Transition :=
  [ ⟨0, 1, .forward, true, false⟩, ⟨1, 2, .forward, false, false⟩, ⟨2, 3, .forward, true, true⟩,
    ⟨3, 0, .forward, false, true⟩, ⟨1, 0, .backward, true, true⟩, ⟨2, 1, .backward, false, true⟩,
    ⟨3, 2, .backward, true, false⟩, ⟨0, 3, .backward, false, false⟩ ]

/-! ## Repetition -/

/-- `n` executions of one command, each from where the last one ended. -/
def execTimes (i : Instr) : Nat → State → Outcome
  | 0, s => .next s
  | n + 1, s =>
    match exec i s with
    | .next t => execTimes i n t
    | .fault f => .fault f
    | .refused r => .refused r

/-! ## Invariants -/

/-- STATUS and FCMD: the reserved bits are 0; FCODE and FCMD hold something only after a fault, and then a code 1 to 9
(10_state R24, R42; 60_exceptions R141); no slot is claimed before INIT has completed (60_exceptions R145). -/
def StatusInv (s : State) : Prop :=
  s.statusReserved = 0 ∧
  (s.faulted = false → s.fcode = 0 ∧ s.fcmd = 0) ∧
  (s.faulted = true → 1 ≤ s.fcode.toNat ∧ s.fcode.toNat ≤ 9) ∧
  (s.initDone = false → s.slot0.claimed = false ∧ s.slot1.claimed = false)

/-- A revolution length that CLAIM accepts: `S × M` for a positive S, at most 65536 (41_motor_driver R106). -/
def LegalRevolution (c : Config) (v : Slot) : Prop :=
  ∃ steps : Nat, 0 < steps ∧ v.nrev.toNat = steps * c.m ∧ v.nrev.toNat ≤ 65536

/-- One slot: PHASE within its cycle (10_state R31); an unclaimed slot has the values of reset and no written TARGET or
SPEED (R40); a claimed one has a legal revolution length (R30); the interval of a written SPEED is one SET_SPEED can
compute (41_motor_driver R120). It says nothing of the bits behind an unwritten TARGET or SPEED (log 8). -/
def SlotInv (c : Config) (v : Slot) : Prop :=
  v.phase.toNat < c.m4 ∧
  (v.claimed = false → v.nrev = 0 ∧ v.phase = 0 ∧ v.pos = 0 ∧ v.tgtW = false ∧ v.spdW = false) ∧
  (v.claimed = true → LegalRevolution c v) ∧
  (v.spdW = true → v.speed.toNat ≤ 60000000)

/-- POS within its revolution (10_state R32): for every claimed slot, but slot 0 when SLOT0_REARM is true, where "a
re-claim can break it". -/
def PosInv (s : State) : Prop :=
  ∀ k : SlotId, (s.cfg.slot0Rearm = false ∨ k = .slot1) → (s.slot k).claimed = true →
    (s.slot k).pos.toNat < (s.slot k).nrev.toNat

/-- The channel shadow is the replay of OUT; after a bus fault, of all but its last transaction, whose channel is
unknown (10_state R38, 60_exceptions R146). -/
def ShadowInv (s : State) : Prop :=
  (s.fcode ≠ FaultCode.bus.bits → s.chan = replay s.out) ∧
  (s.fcode = FaultCode.bus.bits → ∃ before last, s.out = before ++ [last] ∧
    s.chan = shadowAfter (replay before) last .busFault)

/-- A pair a PWM transaction can carry: on ∈ {0, 4096}, off in 0..4095 (20_memory R52). -/
def LegalTransaction : Transaction → Prop
  | .busOpen _ => True
  | .freq _ => True
  | .pwm _ on off => (on = 0 ∨ on = 4096) ∧ off.toNat ≤ 4095

/-- OUT: only legal pairs; nothing before INIT is tried; and once INIT_DONE is 1 it begins with the whole sequence of
INIT (20_memory R52, 40_port R87, 70_reset R162). -/
def StreamInv (s : State) : Prop :=
  (∀ e ∈ s.out, LegalTransaction e) ∧
  (s.initDone = false → s.fcode ≠ FaultCode.bus.bits → s.out = []) ∧
  (s.initDone = true → ∃ f rest, f ≠ 0 ∧ s.out = initTransactions s.cfg f ++ rest)

/-- A legal instance in a state its runs can reach. -/
def Inv (s : State) : Prop :=
  s.cfg.wf = true ∧ StatusInv s ∧ SlotInv s.cfg s.slot0 ∧ SlotInv s.cfg s.slot1 ∧ PosInv s ∧ ShadowInv s ∧ StreamInv s

end Sys2Proof.Machine
end

