-- ==== Sys2Proof/Certificates/Slice0/Obligations.lean ====
section
/-! DEFINITION. The statements for the provers, from the numbered rules of the spec. -/

open Sys2Proof Sys2Proof.Machine

/-! ## Encoding -/

/-- 30_encoding R68, R75: the decoder reads back every encoded command, with every operand at every value. -/
def Obligations.DecodeEncode : Prop :=
  ∀ i : Instr, decode (encode i) = .ok i

/-- 30_encoding R75: "every word is either exactly one command of rule R68 or illegal": a decoded word is the encoding
of what it decodes to, so no two words are one command. -/
def Obligations.EncodeDecode : Prop :=
  ∀ (w : CmdWord) (i : Instr), decode w = .ok i → encode i = w

/-- 30_encoding R76: the decoder by masks and matches, as the rule writes it, and the model's decoder by fields agree
on every word: in the mnemonic, and the four operand fields of the word are those of the decoded command's own word,
which the per-instruction statements write out for each command's operands. -/
def Obligations.DecodeAgreesWithRows : Prop :=
  ∀ w : CmdWord,
    decodeByRows w =
      match decode w with
      | .ok i =>
        let f := fieldsOf (encode i)
        if i.isReserved then none else some { mnemonic := i.mnemonic, mn := f.mn, b := f.b, ch := f.ch, imm := f.imm }
      | .error _ => none

/-- 30_encoding R68: "The rows are disjoint". -/
def Obligations.RowsDisjoint : Prop :=
  ∀ w : CmdWord, ∀ r ∈ commandRows ++ reservedRows, ∀ r' ∈ commandRows ++ reservedRows,
    r.matches w = true → r'.matches w = true → r = r'

/-- 30_encoding R74: a word whose OPC is 0x0, 0xD, 0xE or 0xF, or whose OPC is a row's but which does not match the
row (a 1 in a must-be-zero bit, R69), raises Fault(ILLEGAL) and has no other effect. -/
def Obligations.IllegalWordFaults : Prop :=
  ∀ (s : State) (w : CmdWord) (rest : List HostInput),
    s.inputs = .command w :: rest → s.faulted = false →
    (w.extractLsb' 28 4 ∈ [0x0#4, 0xD#4, 0xE#4, 0xF#4] ∨
      ∃ r ∈ commandRows, r.pattern.extractLsb' 28 4 = w.extractLsb' 28 4 ∧ r.matches w = false) →
    ∃ t, step s = .next t ∧ RaisedFault .illegal w { s with inputs := rest } t ∧
      SameSlots s t ∧ SamePort s t

/-- 30_encoding R83 and 95_test_vectors §2: the spec's encoding examples decode to what they stand for. -/
def Obligations.EncodingExamples : Prop :=
  decode 0x10000640 = .ok (.init 1600) ∧
  decode 0x200F1388 = .ok (.setDuty 15 5000) ∧
  decode 0x320E0000 = .ok (.setRail 14 true) ∧
  decode 0x300E0000 = .ok (.setRail 14 false) ∧
  decode 0x4C0000C8 = .ok (.claim 3 200) ∧
  decode 0x56000000 = .ok (.advance 1 .backward) ∧
  decode 0x58000000 = .ok (.advance 2 .forward) ∧
  decode 0x68000000 = .ok (.release 2) ∧
  decode 0x78000C7F = .ok (.setTarget 2 3199) ∧
  decode 0x84000C80 = .ok (.setPosition 1 3200) ∧
  decode 0x98000000 = .ok (.isAtTarget 2) ∧
  decode 0xA4000000 = .ok (.getPosition 1) ∧
  decode 0xB400000A = .ok (.setSpeed 1 10) ∧
  decode 0xC4000000 = .ok (.getSpeed 1) ∧
  decode 0x54100000 = .error (.mustBeZero 0x5)

/-! ## Step, host and reset -/

/-- 60_exceptions R145, 10_state R22: a command word at an engine that is not halted, which decodes to `i`, is executed
as `i`, in the state with that word taken from the host. -/
def Obligations.StepRunsDecoded : Prop :=
  ∀ (s : State) (w : CmdWord) (rest : List HostInput) (i : Instr),
    s.inputs = .command w :: rest → s.faulted = false → decode w = .ok i →
    step s = exec i { s with inputs := rest }

/-- 10_state R26: reading STATUS, RESP or FCMD has no side effect, at any time between commands: also in a halted
engine. -/
def Obligations.ReadHasNoEffect : Prop :=
  ∀ (s : State) (r : HostReg) (rest : List HostInput),
    s.inputs = .read r :: rest → step s = .next { s with inputs := rest }

/-- 10_state R24 to R26, R42; 20_memory R59: what the host reads. STATUS by its bits, zero-extended, with bits 3:2 read
as 0; RESP and FCMD whole; a read leaves all three as they read; and after a command they show its writes: STATUS is 1
(INIT_DONE alone) if it completed, and 16 × FCODE + 2 + INIT_DONE, with a code of 60_exceptions R141 and the command's
word in FCMD and RESP as it was, if it faulted. -/
def Obligations.HostReads : Prop :=
  (∀ s : State,
    (∀ n, (s.hostRead .status).getLsbD n =
      (s.status.getLsbD n && decide (n = 0 ∨ n = 1 ∨ 4 ≤ n ∧ n ≤ 7))) ∧
    s.hostRead .resp = s.resp ∧ s.hostRead .fcmd = s.fcmd) ∧
  (∀ (s : State) (r r' : HostReg) (rest : List HostInput), s.inputs = .read r :: rest →
    ∃ t, step s = .next t ∧ t.hostRead r' = s.hostRead r') ∧
  ∀ (i : Instr) (s t : State), StatusInv s → exec i s = .next t →
    (t.faulted = false → t.hostRead .status = 1) ∧
    (t.faulted = true → ∃ code : FaultCode,
      (t.hostRead .status).toNat = 16 * code.bits.toNat + 2 + (if s.initDone = true then 1 else 0) ∧
      t.hostRead .fcmd = encode i ∧ t.hostRead .resp = s.hostRead .resp)

/-- 60_exceptions R154: between commands the engine waits for the next, holding all state. -/
def Obligations.WaitsForCommand : Prop :=
  ∀ s : State, s.inputs = [] → step s = .next s

/-- 70_reset R160, 10_state R40: the state after reset, for every instance; reset emits no transaction, and the engine
then waits for the first command. The bits of TARGET and SPEED behind their written bits are the model's choice (log 8)
and are not stated. -/
def Obligations.ResetValues : Prop :=
  ∀ c : Config,
    let s := State.resetWith c
    s.cfg = c ∧ s.initDone = false ∧ s.faulted = false ∧ s.fcode = 0 ∧ s.status = 0 ∧ s.resp = 0 ∧ s.fcmd = 0 ∧
    s.out = [] ∧ (∀ ch, s.chanAt ch = .unwritten) ∧
    (∀ k : SlotId, (s.slot k).claimed = false ∧ (s.slot k).nrev = 0 ∧ (s.slot k).phase = 0 ∧
      (s.slot k).pos = 0 ∧ (s.slot k).tgtW = false ∧ (s.slot k).spdW = false) ∧
    step s = .next s

/-- 70_reset R161: a reset at a command boundary, also of a halted engine, changes no parameter, clears a fault, puts
every register at its reset value and leaves the channel shadow unwritten. The host's pending interactions are the
model's own field (log 1). That OUT starts again is the model's choice (log 7) and is not stated. -/
def Obligations.ResetInput : Prop :=
  ∀ (s : State) (rest : List HostInput), s.inputs = .reset :: rest →
    ∃ t, step s = .next t ∧ t.cfg = s.cfg ∧ t.inputs = rest ∧
      t.faulted = false ∧ t.status = 0 ∧ t.resp = 0 ∧ t.fcmd = 0 ∧
      (∀ ch, t.chanAt ch = .unwritten) ∧
      ∀ k : SlotId, (t.slot k).claimed = false ∧ (t.slot k).nrev = 0 ∧ (t.slot k).phase = 0 ∧
        (t.slot k).pos = 0 ∧ (t.slot k).tgtW = false ∧ (t.slot k).spdW = false

/-- 60_exceptions section 2: no command clears STATUS.FAULTED (a halted engine has no next state for any command), and
a step that leaves the halt is a reset the host had pending; the command words before it are passed over (log 6). -/
def Obligations.OnlyResetEndsHalt : Prop :=
  (∀ (i : Instr) (s : State), s.faulted = true → exec i s = .fault .halted) ∧
  (∀ s t : State, s.faulted = true → step s = .next t → t.faulted = false →
    ∃ later, afterReset s.inputs = some later ∧ t = applyReset { s with inputs := later })

/-- 60_exceptions section 2, "a command written to it has no step": a halted engine with a command word next and no
reset pending is stuck (log 6). -/
def Obligations.HaltedIsStuck : Prop :=
  ∀ (s : State) (w : CmdWord) (rest : List HostInput),
    s.faulted = true → s.inputs = .command w :: rest → (∀ x ∈ rest, x ≠ .reset) →
    step s = .fault .halted

/-! ## Faults of the common checks -/

/-- 60_exceptions R141 (codes 2 and 3), R145: every command but INIT before INIT faults UNINIT; INIT after INIT faults
REINIT; whatever its other operands would raise. A reserved operation code faults ILLEGAL first. -/
def Obligations.InitialisationFaults : Prop :=
  (∀ (i : Instr) (s : State), s.faulted = false → s.initDone = false → i.isInit = false → i.isReserved = false →
    RaisesPrecisely .uninit i s) ∧
  (∀ (f : Imm) (s : State), s.faulted = false → s.initDone = true → RaisesPrecisely .reinit (.init f) s) ∧
  (∀ (i : Instr) (s : State), s.faulted = false → i.isReserved = true → RaisesPrecisely .illegal i s)

/-- 41_motor_driver R100: every per-slot command except CLAIM resolves its slot first: with MN not 1 or 2 it raises
BAD_SLOT; with the slot unclaimed, UNCLAIMED; otherwise the slot is MN − 1. -/
def Obligations.SlotFaults : Prop :=
  ∀ (i : Instr) (mn : MotorNumber) (s : State), slotOperand i = some mn → s.Ready →
    (mn ≠ 1 → mn ≠ 2 → RaisesPrecisely .badSlot i s) ∧
    (mn = 1 → s.slot0.claimed = false → RaisesPrecisely .unclaimed i s) ∧
    (mn = 2 → s.slot1.claimed = false → RaisesPrecisely .unclaimed i s) ∧
    (mn = 1 → s.slot0.claimed = true → resolveSlot mn s = .ok .slot0) ∧
    (mn = 2 → s.slot1.claimed = true → resolveSlot mn s = .ok .slot1)

/-! ## Port commands -/

/-- 40_port R87: INIT from an engine that is not initialised: BUS_OPEN, the sixteen `PWM(ch, 0, 0)` in ascending ch and
FREQ(f), in the order of INIT_ORDER; then INIT_DONE = 1 and RESP = 0; every CHAN[ch] = (0, 0); nothing else changes.
`f = 0` raises RANGE, and INIT again raises REINIT. -/
def Obligations.InitCompletes : Prop :=
  ∀ (f : Imm) (s : State), s.faulted = false →
    let resets := (List.range 16).map (fun n => Transaction.pwm (BitVec.ofNat 4 n) 0 0)
    let ts := match s.cfg.initOrder with
      | .resetThenFreq => [Transaction.busOpen s.cfg.busAddr] ++ resets ++ [.freq f]
      | .freqThenReset => [Transaction.busOpen s.cfg.busAddr, .freq f] ++ resets
    encode (.init f) = wordOf { opc := 0x1, mn := 0, b := 0, rsv := 0, ch := 0, imm := f } ∧
    (s.initDone = false → f ≠ 0 → s.PortAccepts 18 →
      ∃ t, exec (.init f) s = .next t ∧ CompletesWith 0 s t ∧ Emitted ts s t ∧ SameSlots s t ∧
        t.initDone = true ∧ t.faulted = false ∧ t.fcode = s.fcode ∧ t.statusReserved = s.statusReserved ∧
        t.fcmd = s.fcmd ∧ ∀ ch, t.chanAt ch = .pair 0 0) ∧
    (s.initDone = false → f = 0 → RaisesPrecisely .range (.init f) s) ∧
    (s.initDone = true → RaisesPrecisely .reinit (.init f) s)

/-- 40_port R88, R92: SET_DUTY on every channel with every value emits exactly one transaction, `PWM(ch, 4096, 0)` for a
value above 4095 and `PWM(ch, 0, v)` otherwise, and changes nothing else but that channel's shadow and RESP. -/
def Obligations.SetDutyCompletes : Prop :=
  ∀ (ch : Channel) (v : Imm) (s : State), s.Ready → s.PortAccepts 1 →
    let pair : Half × Half := if v.toNat > 4095 then (4096, 0) else (0, BitVec.ofNat 13 v.toNat)
    encode (.setDuty ch v) = wordOf { opc := 0x2, mn := 0, b := 0, rsv := 0, ch := ch, imm := v } ∧
    ∃ t, exec (.setDuty ch v) s = .next t ∧ CompletesWith 0 s t ∧ Emitted [.pwm ch pair.1 pair.2] s t ∧
      SameSlots s t ∧ SameFaultRegs s t ∧ t.chanAt ch = .pair pair.1 pair.2 ∧
      ∀ other, other ≠ ch → t.chanAt other = s.chanAt other

/-- 40_port R89, R93; 30_encoding R72: SET_RAIL on every channel emits exactly one transaction, `PWM(ch, 4096, 0)` for
high (B = 1) and `PWM(ch, 0, 0)` for low (B = 0), and changes nothing else but that channel's shadow and RESP. -/
def Obligations.SetRailCompletes : Prop :=
  ∀ (ch : Channel) (high : Bool) (s : State), s.Ready → s.PortAccepts 1 →
    let on : Half := if high = true then 4096 else 0
    encode (.setRail ch high) =
      wordOf { opc := 0x3, mn := 0, b := if high = true then 1 else 0, rsv := 0, ch := ch, imm := 0 } ∧
    ∃ t, exec (.setRail ch high) s = .next t ∧ CompletesWith 0 s t ∧ Emitted [.pwm ch on 0] s t ∧
      SameSlots s t ∧ SameFaultRegs s t ∧ t.chanAt ch = .pair on 0 ∧
      ∀ other, other ≠ ch → t.chanAt other = s.chanAt other

/-- 40_port R90: the rail-high pair is the pair of a saturated duty on every channel, and differs from the pair of the
maximum duty 4095. -/
def Obligations.RailPairIsSaturation : Prop :=
  ∀ (ch : Channel) (v : Imm), v.toNat > 4095 →
    railTransaction ch true = dutyTransaction ch v ∧ railTransaction ch true ≠ dutyTransaction ch 4095

/-! ## CLAIM -/

/-- 41_motor_driver R105, R106, R108: CLAIM, in every branch of the rule. MN 0 or 3 returns the null handle and changes
nothing else, for every S. A slot already claimed (but slot 0 under SLOT0_REARM) returns its handle and changes nothing
else, for every S. Otherwise S = 0 or S × M > 65536 raises RANGE, and any other S sets CLAIMED and NREV = S × M and
returns the handle, with PHASE, POS, TARGET, SPEED, the other slot and the Port as they were. -/
def Obligations.ClaimCompletes : Prop :=
  ∀ (mn : MotorNumber) (steps : Imm) (s : State), s.Ready →
    encode (.claim mn steps) = wordOf { opc := 0x4, mn := mn, b := 0, rsv := 0, ch := 0, imm := steps } ∧
    (mn ≠ 1 → mn ≠ 2 →
      ∃ t, exec (.claim mn steps) s = .next t ∧ CompletesWith 0 s t ∧ SameSlots s t ∧ SameFaultRegs s t ∧
        SamePort s t) ∧
    ∀ k, slotOf mn = some k →
      ((s.slot k).claimed = true → ¬(s.cfg.slot0Rearm = true ∧ k = .slot0) →
        ∃ t, exec (.claim mn steps) s = .next t ∧ CompletesWith (mn.setWidth 32) s t ∧ SameSlots s t ∧
          SameFaultRegs s t ∧ SamePort s t) ∧
      ((s.slot k).claimed = false ∨ (s.cfg.slot0Rearm = true ∧ k = .slot0) →
        ((steps.toNat = 0 ∨ steps.toNat * s.cfg.m > 65536) → RaisesPrecisely .range (.claim mn steps) s) ∧
        (0 < steps.toNat → steps.toNat * s.cfg.m ≤ 65536 →
          ∃ t, exec (.claim mn steps) s = .next t ∧ CompletesWith (mn.setWidth 32) s t ∧
            (t.slot k).nrev.toNat = steps.toNat * s.cfg.m ∧
            t.slot k = { s.slot k with claimed := true, nrev := (t.slot k).nrev } ∧
            t.slot (otherSlot k) = s.slot (otherSlot k) ∧ SameFaultRegs s t ∧ SamePort s t))

/-- 41_motor_driver R107: a repeated CLAIM changes nothing and returns the same handle, for every S; but with
SLOT0_REARM = true a CLAIM of motor 1 runs the configuration again (range check, NREV[0] <- S × M), leaving POS[0] as
it is; motor 2 is unaffected. -/
def Obligations.ClaimRepeated : Prop :=
  ∀ (mn : MotorNumber) (steps : Imm) (k : SlotId) (s : State), s.Ready → slotOf mn = some k →
    (s.slot k).claimed = true →
    ((s.cfg.slot0Rearm = false ∨ k = .slot1) →
      ∃ t, exec (.claim mn steps) s = .next t ∧ CompletesWith (mn.setWidth 32) s t ∧ SameSlots s t ∧
        SameFaultRegs s t ∧ SamePort s t) ∧
    (s.cfg.slot0Rearm = true → k = .slot0 →
      (0 < steps.toNat → steps.toNat * s.cfg.m ≤ 65536 →
        ∃ t, exec (.claim mn steps) s = .next t ∧ CompletesWith (mn.setWidth 32) s t ∧
          t.slot0.nrev.toNat = steps.toNat * s.cfg.m ∧ t.slot0 = { s.slot0 with nrev := t.slot0.nrev } ∧
          t.slot1 = s.slot1 ∧ SameFaultRegs s t ∧ SamePort s t) ∧
      ((steps.toNat = 0 ∨ steps.toNat * s.cfg.m > 65536) → RaisesPrecisely .range (.claim mn steps) s))

/-! ## ADVANCE and RELEASE -/

/-- 41_motor_driver R109, R112; 30_encoding R71: ADVANCE. PHASE moves by one modulo M4 and POS by one modulo NREV (also
from a POS ≥ NREV); then the six transactions, in the rule's order, of the excitation of the NEW phase, after which the
slot's six channels hold those pairs; RESP is the new POS. The slot's other registers, the other slot, STATUS, FCMD and
every other channel stay. Every legal NREV is 1 to 65536 (10_state R30). -/
def Obligations.AdvanceCompletes : Prop :=
  ∀ (mn : MotorNumber) (dir : Direction) (k : SlotId) (s : State), s.Ready → s.Resolves mn k → s.cfg.wf = true →
    0 < (s.slot k).nrev.toNat → (s.slot k).nrev.toNat ≤ 65536 → s.PortAccepts 6 →
    encode (.advance mn dir) =
      wordOf { opc := 0x5, mn := mn, b := if dir = .forward then 0 else 1, rsv := 0, ch := 0, imm := 0 } ∧
    ∃ t dA dB, exec (.advance mn dir) s = .next t ∧
      (t.slot k).phase.toNat = advanced dir s.cfg.m4 (s.slot k).phase.toNat ∧
      (t.slot k).pos.toNat = advanced dir (s.slot k).nrev.toNat (s.slot k).pos.toNat ∧
      t.slot k = { s.slot k with phase := (t.slot k).phase, pos := (t.slot k).pos } ∧
      CompletesWith ((t.slot k).pos.setWidth 32) s t ∧
      t.slot (otherSlot k) = s.slot (otherSlot k) ∧ SameFaultRegs s t ∧
      s.cfg.excTable[coilIndexA s.cfg.m (t.slot k).phase.toNat]? = some dA ∧
      s.cfg.excTable[coilIndexB s.cfg.m (t.slot k).phase.toNat]? = some dB ∧
      Emitted (advanceWrites s.cfg k (t.slot k).phase.toNat dA dB) s t ∧
      (∀ ch on off, Transaction.pwm ch on off ∈ advanceWrites s.cfg k (t.slot k).phase.toNat dA dB →
        t.chanAt ch = .pair on off) ∧
      (∀ ch, ch ∉ (s.cfg.pins k).channels → t.chanAt ch = s.chanAt ch)

/-- 41_motor_driver R115: RELEASE emits `PWM(ch, 0, 0)` for AIN1, AIN2, BIN1, BIN2, PWMA, PWMB in this order, whatever
the slot's state, and writes RESP only; after it the six channels hold (0, 0) and every other is as before. -/
def Obligations.ReleaseCompletes : Prop :=
  ∀ (mn : MotorNumber) (k : SlotId) (s : State), s.Ready → s.Resolves mn k → s.PortAccepts 6 →
    let p := s.cfg.pins k
    encode (.release mn) = wordOf { opc := 0x6, mn := mn, b := 0, rsv := 0, ch := 0, imm := 0 } ∧
    ∃ t, exec (.release mn) s = .next t ∧ CompletesWith 0 s t ∧ SameSlots s t ∧ SameFaultRegs s t ∧
      Emitted [.pwm p.ain1 0 0, .pwm p.ain2 0 0, .pwm p.bin1 0 0, .pwm p.bin2 0 0, .pwm p.pwma 0 0, .pwm p.pwmb 0 0]
        s t ∧
      (∀ ch ∈ p.channels, t.chanAt ch = .pair 0 0) ∧
      (∀ ch, ch ∉ p.channels → t.chanAt ch = s.chanAt ch)

/-- 40_port R94: whatever the six channels of a slot held (a host may have written them with SET_DUTY or SET_RAIL), the
slot's next ADVANCE or RELEASE overwrites all six: after it they do not depend on what was there. -/
def Obligations.MotorChannelsOverwritten : Prop :=
  ∀ (i : Instr) (mn : MotorNumber) (k : SlotId) (s : State) (held : Vector ChanValue 16), s.Ready →
    s.Resolves mn k → s.cfg.wf = true → s.PortAccepts 6 →
    (i = .release mn ∨ ∃ dir, i = .advance mn dir) →
    ∃ t t', exec i s = .next t ∧ exec i { s with chan := held } = .next t' ∧
      ∀ ch ∈ (s.cfg.pins k).channels, t.chanAt ch = t'.chanAt ch

/-! ## Target, position, speed -/

/-- 41_motor_driver R116: SET_TARGET stores every p, sets TGT_W and leaves everything else. -/
def Obligations.SetTargetCompletes : Prop :=
  ∀ (mn : MotorNumber) (p : Imm) (k : SlotId) (s : State), s.Ready → s.Resolves mn k →
    encode (.setTarget mn p) = wordOf { opc := 0x7, mn := mn, b := 0, rsv := 0, ch := 0, imm := p } ∧
    ∃ t, exec (.setTarget mn p) s = .next t ∧ CompletesWith 0 s t ∧
      t.slot k = { s.slot k with target := p, tgtW := true } ∧
      t.slot (otherSlot k) = s.slot (otherSlot k) ∧ SameFaultRegs s t ∧ SamePort s t

/-- 41_motor_driver R117: SET_POSITION with p < NREV stores p in POS and leaves PHASE, the coils and the rest; with
p ≥ NREV it raises RANGE and changes nothing. -/
def Obligations.SetPositionCompletes : Prop :=
  ∀ (mn : MotorNumber) (p : Imm) (k : SlotId) (s : State), s.Ready → s.Resolves mn k →
    encode (.setPosition mn p) = wordOf { opc := 0x8, mn := mn, b := 0, rsv := 0, ch := 0, imm := p } ∧
    (p.toNat < (s.slot k).nrev.toNat →
      ∃ t, exec (.setPosition mn p) s = .next t ∧ CompletesWith 0 s t ∧ t.slot k = { s.slot k with pos := p } ∧
        t.slot (otherSlot k) = s.slot (otherSlot k) ∧ SameFaultRegs s t ∧ SamePort s t) ∧
    (p.toNat ≥ (s.slot k).nrev.toNat → RaisesPrecisely .range (.setPosition mn p) s)

/-- 41_motor_driver R118: IS_AT_TARGET answers 1 if POS = TARGET, exactly, else 0, and writes RESP only; with TARGET
unwritten it raises UNWRITTEN. -/
def Obligations.IsAtTargetCompletes : Prop :=
  ∀ (mn : MotorNumber) (k : SlotId) (s : State), s.Ready → s.Resolves mn k →
    encode (.isAtTarget mn) = wordOf { opc := 0x9, mn := mn, b := 0, rsv := 0, ch := 0, imm := 0 } ∧
    ((s.slot k).tgtW = true →
      ∃ t, exec (.isAtTarget mn) s = .next t ∧
        CompletesWith (if (s.slot k).pos = (s.slot k).target then 1 else 0) s t ∧
        SameSlots s t ∧ SameFaultRegs s t ∧ SamePort s t) ∧
    ((s.slot k).tgtW = false → RaisesPrecisely .unwritten (.isAtTarget mn) s)

/-- 41_motor_driver R119: GET_POSITION returns POS and writes RESP only. -/
def Obligations.GetPositionCompletes : Prop :=
  ∀ (mn : MotorNumber) (k : SlotId) (s : State), s.Ready → s.Resolves mn k →
    encode (.getPosition mn) = wordOf { opc := 0xA, mn := mn, b := 0, rsv := 0, ch := 0, imm := 0 } ∧
    ∃ t, exec (.getPosition mn) s = .next t ∧ CompletesWith ((s.slot k).pos.setWidth 32) s t ∧
      SameSlots s t ∧ SameFaultRegs s t ∧ SamePort s t

/-- 41_motor_driver R120: SET_SPEED stores the truncated quotient of 60000000 by NREV × rpm and sets SPD_W, with
nothing else changed; rpm = 0 raises DIV0. NREV is positive in every claimed slot (SlotsInvKept). -/
def Obligations.SetSpeedCompletes : Prop :=
  ∀ (mn : MotorNumber) (rpm : Imm) (k : SlotId) (s : State), s.Ready → s.Resolves mn k →
    0 < (s.slot k).nrev.toNat →
    encode (.setSpeed mn rpm) = wordOf { opc := 0xB, mn := mn, b := 0, rsv := 0, ch := 0, imm := rpm } ∧
    (rpm ≠ 0 →
      ∃ t, exec (.setSpeed mn rpm) s = .next t ∧ CompletesWith 0 s t ∧
        (t.slot k).speed.toNat * ((s.slot k).nrev.toNat * rpm.toNat) ≤ 60000000 ∧
        60000000 < ((t.slot k).speed.toNat + 1) * ((s.slot k).nrev.toNat * rpm.toNat) ∧
        t.slot k = { s.slot k with speed := (t.slot k).speed, spdW := true } ∧
        t.slot (otherSlot k) = s.slot (otherSlot k) ∧ SameFaultRegs s t ∧ SamePort s t) ∧
    (rpm = 0 → RaisesPrecisely .div0 (.setSpeed mn rpm) s)

/-- 41_motor_driver R121: GET_SPEED returns the stored interval and writes RESP only; with SPEED unwritten it raises
UNWRITTEN. -/
def Obligations.GetSpeedCompletes : Prop :=
  ∀ (mn : MotorNumber) (k : SlotId) (s : State), s.Ready → s.Resolves mn k →
    encode (.getSpeed mn) = wordOf { opc := 0xC, mn := mn, b := 0, rsv := 0, ch := 0, imm := 0 } ∧
    ((s.slot k).spdW = true →
      ∃ t, exec (.getSpeed mn) s = .next t ∧ CompletesWith (s.slot k).speed s t ∧
        SameSlots s t ∧ SameFaultRegs s t ∧ SamePort s t) ∧
    ((s.slot k).spdW = false → RaisesPrecisely .unwritten (.getSpeed mn) s)

/-- 30_encoding R74, 60_exceptions R143: each reserved operation code, whatever its other bits and whether or not INIT
has run, has the effect of raising ILLEGAL. -/
def Obligations.ReservedRaisesIllegal : Prop :=
  ∀ (low : BitVec 28) (s : State), s.faulted = false →
    RaisesPrecisely .illegal (.reserved0 low) s ∧ RaisesPrecisely .illegal (.reservedD low) s ∧
    RaisesPrecisely .illegal (.reservedE low) s ∧ RaisesPrecisely .illegal (.reservedF low) s

/-! ## Bus faults -/

/-- 60_exceptions R146, for the commands that write no register before their transactions: a bus fault on transaction
j + 1 of SET_DUTY, SET_RAIL, INIT or RELEASE ends the command there; no slot changes, and INIT_DONE is not set. -/
def Obligations.PortBusFault : Prop :=
  ∀ (i : Instr) (s : State) (ts : List Transaction) (j : Nat), s.faulted = false →
    ((∃ ch v, i = .setDuty ch v ∧ s.initDone = true ∧ ts = [dutyTransaction ch v]) ∨
     (∃ ch high, i = .setRail ch high ∧ s.initDone = true ∧ ts = [railTransaction ch high]) ∨
     (∃ f, i = .init f ∧ s.initDone = false ∧ f ≠ 0 ∧ ts = initTransactions s.cfg f) ∨
     (∃ mn k, i = .release mn ∧ s.initDone = true ∧ s.Resolves mn k ∧ ts = releaseTransactions (s.cfg.pins k))) →
    j < ts.length → s.PortFaultsAfter j →
    ∃ t, exec i s = .next t ∧ EndedByBusFault (encode i) ts j s t ∧ SameSlots s t

/-- 60_exceptions R146: a bus fault on a transaction of ADVANCE: PHASE and POS have already moved and stand; the rest
as for the other commands. -/
def Obligations.AdvanceBusFault : Prop :=
  ∀ (mn : MotorNumber) (dir : Direction) (k : SlotId) (s : State) (j : Nat), s.Ready → s.Resolves mn k →
    s.cfg.wf = true → 0 < (s.slot k).nrev.toNat → (s.slot k).nrev.toNat ≤ 65536 →
    j < 6 → s.PortFaultsAfter j →
    ∃ t dA dB, exec (.advance mn dir) s = .next t ∧
      (t.slot k).phase.toNat = advanced dir s.cfg.m4 (s.slot k).phase.toNat ∧
      (t.slot k).pos.toNat = advanced dir (s.slot k).nrev.toNat (s.slot k).pos.toNat ∧
      t.slot k = { s.slot k with phase := (t.slot k).phase, pos := (t.slot k).pos } ∧
      t.slot (otherSlot k) = s.slot (otherSlot k) ∧
      s.cfg.excTable[coilIndexA s.cfg.m (t.slot k).phase.toNat]? = some dA ∧
      s.cfg.excTable[coilIndexB s.cfg.m (t.slot k).phase.toNat]? = some dB ∧
      EndedByBusFault (encode (.advance mn dir)) (advanceWrites s.cfg k (t.slot k).phase.toNat dA dB) j s t

/-! ## The excitation function -/

/-- 41_motor_driver R101 to R104: for a legal instance and a phase of the cycle, Excite answers the quadrant, the two
indices of the rule's table, the table's entries at them, and the quadrant's latch. That the indices sum to M (R102)
and that exactly one line of each pair is high (R103) the spec marks as derived from its tables. -/
def Obligations.ExciteValue : Prop :=
  ∀ (c : Config) (p : Nat), c.wf = true → p < c.m4 →
    ∃ e, excite c p = some e ∧ e.iA + e.iB = c.m ∧
      c.excTable[e.iA]? = some e.dA ∧ c.excTable[e.iB]? = some e.dB ∧
      (p < c.m → e.q = .q0 ∧ e.latch = 0x3 ∧ e.iA = c.m - p ∧ e.iB = p) ∧
      (c.m ≤ p → p < 2 * c.m → e.q = .q1 ∧ e.latch = 0x6 ∧ e.iA = p - c.m ∧ e.iB = 2 * c.m - p) ∧
      (2 * c.m ≤ p → p < 3 * c.m → e.q = .q2 ∧ e.latch = 0xC ∧ e.iA = 3 * c.m - p ∧ e.iB = p - 2 * c.m) ∧
      (3 * c.m ≤ p → e.q = .q3 ∧ e.latch = 0x9 ∧ e.iA = p - 3 * c.m ∧ e.iB = 4 * c.m - p) ∧
      e.latch.getLsbD 2 = !e.latch.getLsbD 0 ∧ e.latch.getLsbD 1 = !e.latch.getLsbD 3

/-- 41_motor_driver R113: at a boundary the formulas of the two adjoining quadrants give the same indices, one 0 and
the other M, and the latch is the entering quadrant's, which differs from the one left; so too where the cycle wraps
from quadrant 3 to phase 0. -/
def Obligations.BoundaryTieBreak : Prop :=
  ∀ m : Nat, 0 < m →
    (quadrantOf m 0 = .q0 ∧ indexA m .q3 (4 * m) = indexA m .q0 0 ∧ indexB m .q3 (4 * m) = indexB m .q0 0 ∧
      indexA m .q0 0 = m ∧ indexB m .q0 0 = 0 ∧ latchOf .q0 ≠ latchOf .q3) ∧
    ∀ qs ∈ [(Quadrant.q0, Quadrant.q1, 1), (Quadrant.q1, Quadrant.q2, 2), (Quadrant.q2, Quadrant.q3, 3)],
      let p := qs.2.2 * m
      quadrantOf m p = qs.2.1 ∧ indexA m qs.1 p = indexA m qs.2.1 p ∧ indexB m qs.1 p = indexB m qs.2.1 p ∧
      ((indexA m qs.2.1 p = 0 ∧ indexB m qs.2.1 p = m) ∨ (indexA m qs.2.1 p = m ∧ indexB m qs.2.1 p = 0)) ∧
      latchOf (quadrantOf m p) ≠ latchOf qs.1

/-- 41_motor_driver R124, law 5: the duty pair has period 2M and the latch does not. -/
def Obligations.DutyPeriod : Prop :=
  ∀ (c : Config) (p : Nat), c.wf = true → p < 2 * c.m →
    ∃ e e', excite c p = some e ∧ excite c (p + 2 * c.m) = some e' ∧
      e.dA = e'.dA ∧ e.dB = e'.dB ∧ e.latch ≠ e'.latch

/-- 41_motor_driver R124, law 4: two ADVANCEs of a slot that land on the same phase emit the same six transactions,
whatever the directions, positions and the rest of the two states. -/
def Obligations.ExcitationOfPhaseAlone : Prop :=
  ∀ (mn : MotorNumber) (dir dir' : Direction) (k : SlotId) (s s' t t' : State), s.cfg = s'.cfg → s.Ready → s'.Ready →
    s.Resolves mn k → s'.Resolves mn k → s.PortAccepts 6 → s'.PortAccepts 6 →
    exec (.advance mn dir) s = .next t → exec (.advance mn dir') s' = .next t' →
    (t.slot k).phase = (t'.slot k).phase →
    ∃ six : List Transaction, six.length = 6 ∧ t.out = s.out ++ six ∧ t'.out = s'.out ++ six

/-- 70_reset R165: the transients of an ADVANCE that crosses a quadrant boundary, on the shadow as the transactions
appended to OUT reach it one at a time. When the slot's lines stood at the latch of the quadrant left: after
transaction 1 coil A has its new duty and coil B its old one, after 2 both are new and all lines old; both lines of the
row's pair are at the row's level exactly after transactions 3 and 4 (pair A) or 4 and 5 (pair B) and opposed at every
other time; the other pair is always opposed; and the six leave the lines at the latch of the quadrant entered. -/
def Obligations.BoundaryTransients : Prop :=
  ∀ (mn : MotorNumber) (k : SlotId) (s : State) (r : Transition), s.Ready → s.Resolves mn k → s.cfg.wf = true →
    s.PortAccepts 6 → r ∈ transitions → (s.slot k).phase.toNat / s.cfg.m = r.left →
    advanced r.dir s.cfg.m4 (s.slot k).phase.toNat / s.cfg.m = r.entered → LinesAt (s.cfg.pins k) r.left s.chan →
    let p := s.cfg.pins k
    ∃ t six, exec (.advance mn r.dir) s = .next t ∧ six.length = 6 ∧ Emitted six s t ∧
      let held := fun n => acceptAll s.chan (six.take n)
      shadowAt (held 1) p.pwma = t.chanAt p.pwma ∧ shadowAt (held 1) p.pwmb = s.chanAt p.pwmb ∧
      shadowAt (held 2) p.pwma = t.chanAt p.pwma ∧ shadowAt (held 2) p.pwmb = t.chanAt p.pwmb ∧
      LinesAt p r.left (held 2) ∧ LinesAt p r.entered (held 6) ∧ held 6 = t.chan ∧
      ∀ n ≤ 6,
        if r.pairA = true then
          (if n = 3 ∨ n = 4 then PairLevel (held n) p.ain1 p.ain2 r.level else PairOpposed (held n) p.ain1 p.ain2) ∧
            PairOpposed (held n) p.bin1 p.bin2
        else
          (if n = 4 ∨ n = 5 then PairLevel (held n) p.bin1 p.bin2 r.level else PairOpposed (held n) p.bin1 p.bin2) ∧
            PairOpposed (held n) p.ain1 p.ain2

/-! ## What a step can change -/

/-- 10_state R39, R28 to R34: the read/write matrix, by registers: only these commands change these registers of a
slot, when exec gives a next state. -/
def Obligations.OnlyWriters : Prop :=
  ∀ (i : Instr) (s t : State) (k : SlotId), exec i s = .next t →
    ((t.slot k).phase ≠ (s.slot k).phase → ∃ mn dir, i = .advance mn dir) ∧
    ((t.slot k).pos ≠ (s.slot k).pos → (∃ mn dir, i = .advance mn dir) ∨ ∃ mn p, i = .setPosition mn p) ∧
    ((t.slot k).nrev ≠ (s.slot k).nrev → ∃ mn steps, i = .claim mn steps) ∧
    ((t.slot k).claimed ≠ (s.slot k).claimed → (∃ mn steps, i = .claim mn steps) ∧ (t.slot k).claimed = true) ∧
    (((t.slot k).target ≠ (s.slot k).target ∨ (t.slot k).tgtW ≠ (s.slot k).tgtW) → ∃ mn p, i = .setTarget mn p) ∧
    (((t.slot k).speed ≠ (s.slot k).speed ∨ (t.slot k).spdW ≠ (s.slot k).spdW) → ∃ mn rpm, i = .setSpeed mn rpm) ∧
    (t.initDone ≠ s.initDone → i.isInit = true ∧ t.initDone = true) ∧
    (t.fcmd ≠ s.fcmd → t.faulted = true)

/-- 10_state R39: "No command of one slot reads or writes a register of the other slot": whatever the other slot
holds, the command runs the same, and leaves it. -/
def Obligations.SlotIsolation : Prop :=
  ∀ (i : Instr) (k : SlotId) (s : State) (v : Slot), namedSlot i ≠ some (otherSlot k) →
    match exec i s with
    | .next t => exec i (s.setSlot (otherSlot k) v) = .next (t.setSlot (otherSlot k) v) ∧
        t.slot (otherSlot k) = s.slot (otherSlot k)
    | .fault f => exec i (s.setSlot (otherSlot k) v) = .fault f
    | .refused r => exec i (s.setSlot (otherSlot k) v) = .refused r

/-- 60_exceptions R142, 10_state R22, R25, R42: a command that completes moves the stream on by one and records no
fault; one that faults writes STATUS and FCMD and leaves RESP. That a faulting command leaves the index of the next
command is DEDUCED (log 12). -/
def Obligations.CompletesOrFaults : Prop :=
  ∀ (i : Instr) (s t : State), exec i s = .next t →
    s.faulted = false ∧
    ((t.faulted = false ∧ t.pc = s.pc + 1 ∧ t.fcode = s.fcode ∧ t.fcmd = s.fcmd) ∨
     ∃ code, RaisedFault code (encode i) s t)

/-- 60_exceptions R143: faults 1 to 8 are precise: such a command changes nothing but STATUS and FCMD. -/
def Obligations.FaultsArePrecise : Prop :=
  ∀ (i : Instr) (s t : State), exec i s = .next t → t.faulted = true → t.fcode ≠ FaultCode.bus.bits →
    SameSlots s t ∧ SamePort s t ∧ SameOutside s t ∧ t.resp = s.resp ∧ t.pc = s.pc ∧ t.initDone = s.initDone

/-- 20_memory R59, 60_exceptions R146: a command appends its transactions to OUT after all that were there, at most 18,
one answer of the Port used for each. -/
def Obligations.OutOnlyGrows : Prop :=
  ∀ (i : Instr) (s t : State), exec i s = .next t →
    ∃ ts : List Transaction, ts.length ≤ 18 ∧ Emitted ts s t

/-- 00_scope R5, 20_memory R50, 70_reset R161: no step, a reset among them, changes a parameter, the table or the pin
map. -/
def Obligations.ParametersConstant : Prop :=
  ∀ s t : State, step s = .next t → t.cfg = s.cfg

/-- 20_memory section 2, 60_exceptions section 2: for a legal instance a step stops in one case only, a command word at
a halted engine; no step is refused, for every index the engine forms is in the table. -/
def Obligations.OnlyHaltedStops : Prop :=
  (∀ (s : State) (r : Refusal), s.cfg.wf = true → step s ≠ .refused r) ∧
  (∀ (s : State) (f : Fault), step s = .fault f →
    f = .halted ∧ s.faulted = true ∧ ∃ w rest, s.inputs = .command w :: rest)

/-! ## Invariants -/

/-- 10_state R40: every state after reset of a legal instance meets the invariants. That OUT is empty there is the
model's (log 7): the spec's R40 does not list OUT. -/
def Obligations.ResetMeetsInv : Prop :=
  ∀ c : Config, c.wf = true → Inv (State.resetWith c)

/-- 10_state R24, R42: the invariant of STATUS and FCMD is kept by every step. -/
def Obligations.StatusInvKept : Prop :=
  ∀ s t : State, StatusInv s → step s = .next t → StatusInv t

/-- 41_motor_driver R124, law 1; 10_state R30 to R32: the bounds of PHASE, NREV, a written SPEED and POS are kept by
every step of a legal instance (POS of slot 0 only with SLOT0_REARM = false). Nothing is said of the bits behind an
unwritten TARGET or SPEED, which after a reset are the model's choice (log 8). -/
def Obligations.SlotsInvKept : Prop :=
  ∀ s t : State, s.cfg.wf = true → SlotInv s.cfg s.slot0 → SlotInv s.cfg s.slot1 → PosInv s → step s = .next t →
    SlotInv t.cfg t.slot0 ∧ SlotInv t.cfg t.slot1 ∧ PosInv t

/-- 10_state R38: the channel shadow is the function of the transaction stream the rule says, after every step. Across
a reset, which leaves CHAN unwritten (70_reset R161), it rests on the model's emptying OUT there (log 7, DESIGN
CHOICE). -/
def Obligations.ShadowInvKept : Prop :=
  ∀ s t : State, StatusInv s → ShadowInv s → step s = .next t → ShadowInv t

/-- 20_memory R52, 40_port R87, 70_reset R162: OUT holds only legal pairs and begins with the sequence of INIT once
INIT_DONE is 1, after every step of a legal instance. That OUT is empty before INIT and begins with INIT's sequence
after a reset too rests on the model's emptying OUT at reset (log 7, DESIGN CHOICE). -/
def Obligations.StreamInvKept : Prop :=
  ∀ s t : State, s.cfg.wf = true → StatusInv s → StreamInv s → step s = .next t → StreamInv t

/-! ## Laws of ADVANCE -/

/-- 41_motor_driver R124, law 2: k ADVANCEs of a slot in one direction followed by k in the other leave PHASE and POS
as they were, from every phase and position within bounds, in either order. -/
def Obligations.RoundTrip : Prop :=
  ∀ (n : Nat) (mn : MotorNumber) (dir back : Direction) (k : SlotId) (s : State), dir ≠ back → s.Ready →
    s.Resolves mn k → s.cfg.wf = true → SlotInv s.cfg (s.slot k) → (s.slot k).pos.toNat < (s.slot k).nrev.toNat →
    s.PortAccepts (12 * n) →
    ∃ t u, execTimes (.advance mn dir) n s = .next t ∧ execTimes (.advance mn back) n t = .next u ∧
      u.slot k = s.slot k

/-- 41_motor_driver R124, law 3: NREV FORWARD ADVANCEs from POS = 0 return POS to 0, and return PHASE to its start
exactly when M4 divides NREV. -/
def Obligations.FullRevolution : Prop :=
  ∀ (mn : MotorNumber) (k : SlotId) (s : State), s.Ready → s.Resolves mn k → s.cfg.wf = true →
    SlotInv s.cfg (s.slot k) → (s.slot k).pos = 0 → s.PortAccepts (6 * (s.slot k).nrev.toNat) →
    ∃ t, execTimes (.advance mn .forward) (s.slot k).nrev.toNat s = .next t ∧ (t.slot k).pos = 0 ∧
      ((t.slot k).phase = (s.slot k).phase ↔ s.cfg.m4 ∣ (s.slot k).nrev.toNat)

/-- 10_state R41: when M4 divides NREV, ADVANCE keeps PHASE = POS mod M4. -/
def Obligations.AlignmentKept : Prop :=
  ∀ (mn : MotorNumber) (dir : Direction) (k : SlotId) (s t : State), SlotInv s.cfg (s.slot k) → s.cfg.wf = true →
    s.Resolves mn k → (s.slot k).pos.toNat < (s.slot k).nrev.toNat → s.cfg.m4 ∣ (s.slot k).nrev.toNat →
    (s.slot k).phase.toNat = (s.slot k).pos.toNat % s.cfg.m4 → exec (.advance mn dir) s = .next t →
    t.faulted = false → (t.slot k).phase.toNat = (t.slot k).pos.toNat % s.cfg.m4

/-! ## Parameters and assembler -/

/-- 20_memory R47, R48, R55, R56: the reference instances satisfy the constraints, for both values of MSTEP. -/
def Obligations.ReferenceIsLegal : Prop :=
  ∀ m : MStep, (referenceConfig m).wf = true

/-- 00_scope R5, 20_memory R47, R55: elaboration admits exactly the legal parameters and gives a legal instance with
every parameter as written, the pins in the order PWMA, AIN1, AIN2, PWMB, BIN1, BIN2; any other MSTEP, a table or a map
that breaks a constraint, and a bus address beyond 7 bits are rejected. -/
def Obligations.ElaborationRejects : Prop :=
  ∀ p : RawParams,
    (p.Legal → ∃ c, elaborate p = some c ∧ c.wf = true ∧ c.m = p.mstep ∧ c.excTable.map BitVec.toNat = p.excTable ∧
      [c.pins0.pwma, c.pins0.ain1, c.pins0.ain2, c.pins0.pwmb, c.pins0.bin1, c.pins0.bin2].map BitVec.toNat = p.pins0 ∧
      [c.pins1.pwma, c.pins1.ain1, c.pins1.ain2, c.pins1.pwmb, c.pins1.bin1, c.pins1.bin2].map BitVec.toNat = p.pins1 ∧
      c.initOrder = p.initOrder ∧ c.slot0Rearm = p.slot0Rearm ∧ c.busAddr.toNat = p.busAddr) ∧
    (¬p.Legal → elaborate p = none)

/-- 30_encoding R80: a line of each of the twelve commands assembles to the one word with the fields the rule gives, if
mn is in 0..3, ch in 0..15 and the immediate 16 bits wide; any other operand is an assembly error. -/
def Obligations.AssemblerOperands : Prop :=
  ∀ mn ch v : Nat,
    let word := fun (opc : BitVec 4) (mn : Nat) (b : BitVec 1) (ch v : Nat) =>
      [wordOf { opc := opc, mn := BitVec.ofNat 2 mn, b := b, rsv := 0, ch := BitVec.ofNat 4 ch, imm := BitVec.ofNat 16 v }]
    let motor := fun opc => if mn < 4 then some (word opc mn 0 0 0) else none
    let motorValue := fun opc => if mn < 4 ∧ v < 65536 then some (word opc mn 0 0 v) else none
    assemble [.line (.init (some v))] = (if v < 65536 then some (word 0x1 0 0 0 v) else none) ∧
    assemble [.line (.setDuty ch v)] = (if ch < 16 ∧ v < 65536 then some (word 0x2 0 0 ch v) else none) ∧
    (∀ high, assemble [.line (.setRail ch high)] =
      if ch < 16 then some (word 0x3 0 (if high = true then 1 else 0) ch 0) else none) ∧
    assemble [.line (.claim mn v)] = motorValue 0x4 ∧
    (∀ dir, assemble [.line (.advance mn dir)] =
      if mn < 4 then some (word 0x5 mn (if dir = .forward then 0 else 1) 0 0) else none) ∧
    assemble [.line (.release mn)] = motor 0x6 ∧
    assemble [.line (.setTarget mn v)] = motorValue 0x7 ∧
    assemble [.line (.setPosition mn v)] = motorValue 0x8 ∧
    assemble [.line (.isAtTarget mn)] = motor 0x9 ∧
    assemble [.line (.getPosition mn)] = motor 0xA ∧
    assemble [.line (.setSpeed mn v)] = motorValue 0xB ∧
    assemble [.line (.getSpeed mn)] = motor 0xC

/-- 30_encoding R82: the pseudo-instructions assemble to their expansions, and `.rep n ... .endr` to n copies of what
the enclosed lines assemble to. -/
def Obligations.AssemblerPseudo : Prop :=
  (∀ n : Nat,
    (AsmLine.init none).command = (AsmLine.init (some 1600)).command ∧
    (AsmLine.stepF n).command = (AsmLine.advance n .forward).command ∧
    (AsmLine.stepB n).command = (AsmLine.advance n .backward).command ∧
    (AsmLine.railHi n).command = (AsmLine.setRail n true).command ∧
    (AsmLine.railLo n).command = (AsmLine.setRail n false).command) ∧
  ∀ (n : Nat) (block : List AsmLine) (words : List CmdWord),
    assemble (block.map .line) = some words →
    assemble ([.rep n] ++ block.map .line ++ [.endRep]) = some (copies n words)
end

