-- ==== Sys2Proof/Laws/Encoding.lean ====
section
/-! SUPPORT. Fields and words are each other's inverse, and a mask-and-match test is a test of fields. -/

namespace Sys2Proof

theorem extract_append_high {m n : Nat} (a : BitVec m) (b : BitVec n) :
    (a ++ b).extractLsb' n m = a := by
  rw [BitVec.extractLsb'_append_eq_of_le (Nat.le_refl n), Nat.sub_self, BitVec.extractLsb'_eq_self]

theorem extract_append_low {m n : Nat} (a : BitVec m) (b : BitVec n) :
    (a ++ b).extractLsb' 0 n = b := by
  rw [BitVec.extractLsb'_append_eq_of_add_le (by omega), BitVec.extractLsb'_eq_self]

theorem extract_append_skip {m n start len : Nat} (a : BitVec m) (b : BitVec n) (h : start + len ≤ n) :
    (a ++ b).extractLsb' start len = b.extractLsb' start len :=
  BitVec.extractLsb'_append_eq_of_add_le h

@[simp] theorem fieldsOf_wordOf (f : Fields) : fieldsOf (wordOf f) = f := by
  obtain ⟨opc, mn, b, rsv, ch, imm⟩ := f
  simp only [fieldsOf, wordOf, Fields.mk.injEq]
  refine ⟨extract_append_high opc (mn ++ (b ++ (rsv ++ (ch ++ imm)))), ?_, ?_, ?_, ?_, ?_⟩
  · exact (extract_append_skip _ _ (by decide)).trans (extract_append_high mn (b ++ (rsv ++ (ch ++ imm))))
  · rw [extract_append_skip, extract_append_skip]
    · exact extract_append_high b (rsv ++ (ch ++ imm))
    all_goals decide
  · rw [extract_append_skip, extract_append_skip, extract_append_skip]
    · exact extract_append_high rsv (ch ++ imm)
    all_goals decide
  · rw [extract_append_skip, extract_append_skip, extract_append_skip, extract_append_skip]
    · exact extract_append_high ch imm
    all_goals decide
  · rw [extract_append_skip, extract_append_skip, extract_append_skip, extract_append_skip]
    · exact extract_append_low ch imm
    all_goals decide

theorem extract_join (w : CmdWord) (start n m : Nat) (h : start = n) :
    w.extractLsb' start m ++ w.extractLsb' 0 n = w.extractLsb' 0 (m + n) :=
  BitVec.extractLsb'_append_extractLsb'_eq_extractLsb' (by omega)

@[simp] theorem wordOf_fieldsOf (w : CmdWord) : wordOf (fieldsOf w) = w := by
  simp only [fieldsOf, wordOf]
  rw [extract_join w 16 16 4 rfl, extract_join w 20 (4 + 16) 5 rfl, extract_join w 25 (5 + (4 + 16)) 1 rfl,
    extract_join w 26 (1 + (5 + (4 + 16))) 2 rfl, extract_join w 28 (2 + (1 + (5 + (4 + 16)))) 4 rfl]
  exact BitVec.extractLsb'_eq_self

theorem wordOf_injective {f g : Fields} (h : wordOf f = wordOf g) : f = g := by
  rw [← fieldsOf_wordOf f, h, fieldsOf_wordOf]

theorem opc_append_lowBits (w : CmdWord) : (fieldsOf w).opc ++ lowBits w = w :=
  (extract_join w 28 28 4 rfl).trans BitVec.extractLsb'_eq_self

/-- The word of a reserved operation code, taken apart. -/
theorem reserved_word_opc (opc : BitVec 4) (low : BitVec 28) :
    (fieldsOf (opc ++ low : BitVec (4 + 28))).opc = opc := extract_append_high opc low

theorem reserved_word_low (opc : BitVec 4) (low : BitVec 28) :
    lowBits (opc ++ low : BitVec (4 + 28)) = low := extract_append_low opc low

/-- The fields of the conjunction of two words. -/
theorem fieldsOf_and (u w : CmdWord) :
    fieldsOf (u &&& w) =
      { opc := (fieldsOf u).opc &&& (fieldsOf w).opc, mn := (fieldsOf u).mn &&& (fieldsOf w).mn,
        b := (fieldsOf u).b &&& (fieldsOf w).b, rsv := (fieldsOf u).rsv &&& (fieldsOf w).rsv,
        ch := (fieldsOf u).ch &&& (fieldsOf w).ch, imm := (fieldsOf u).imm &&& (fieldsOf w).imm } := by
  simp only [fieldsOf, BitVec.extractLsb'_and]

/-- A row's test, field by field (30_encoding R68, R69). -/
theorem row_matches_iff (r : Row) (w : CmdWord) :
    r.matches w = true ↔
      (fieldsOf w).opc &&& (fieldsOf r.mask).opc = (fieldsOf r.pattern).opc ∧
      (fieldsOf w).mn &&& (fieldsOf r.mask).mn = (fieldsOf r.pattern).mn ∧
      (fieldsOf w).b &&& (fieldsOf r.mask).b = (fieldsOf r.pattern).b ∧
      (fieldsOf w).rsv &&& (fieldsOf r.mask).rsv = (fieldsOf r.pattern).rsv ∧
      (fieldsOf w).ch &&& (fieldsOf r.mask).ch = (fieldsOf r.pattern).ch ∧
      (fieldsOf w).imm &&& (fieldsOf r.mask).imm = (fieldsOf r.pattern).imm := by
  have h : r.matches w = true ↔ fieldsOf (w &&& r.mask) = fieldsOf r.pattern := by
    simp only [Row.matches, beq_iff_eq]
    exact ⟨fun e => by rw [e], fun e => by rw [← wordOf_fieldsOf (w &&& r.mask), e, wordOf_fieldsOf]⟩
  rw [h, fieldsOf_and]
  generalize fieldsOf r.pattern = q
  obtain ⟨a, b, c, d, e, f⟩ := q
  simp only [Fields.mk.injEq]

/-- What a successful test of must-be-zero bits says (30_encoding R69). -/
theorem ifZero_ok {z : Bool} {opc : BitVec 4} {i j : Instr} (h : ifZero z opc i = .ok j) : z = true ∧ i = j := by
  cases z <;> simp_all [ifZero]

end Sys2Proof
end

