-- ==== Sys2Proof/Laws/State.lean ====
section
/-! SUPPORT. One lemma per field per update of the state, so that no proof unfolds a record update; then the flags of
STATUS after each update, slots and channels. -/

namespace Sys2Proof.Machine

/-! ## complete -/

@[simp] theorem complete_cfg (v : BitVec 32) (s : State) :
    (complete v s).cfg = s.cfg := rfl

@[simp] theorem complete_status (v : BitVec 32) (s : State) :
    (complete v s).status = s.status := rfl

@[simp] theorem complete_resp (v : BitVec 32) (s : State) :
    (complete v s).resp = v := rfl

@[simp] theorem complete_fcmd (v : BitVec 32) (s : State) :
    (complete v s).fcmd = s.fcmd := rfl

@[simp] theorem complete_slot0 (v : BitVec 32) (s : State) :
    (complete v s).slot0 = s.slot0 := rfl

@[simp] theorem complete_slot1 (v : BitVec 32) (s : State) :
    (complete v s).slot1 = s.slot1 := rfl

@[simp] theorem complete_chan (v : BitVec 32) (s : State) :
    (complete v s).chan = s.chan := rfl

@[simp] theorem complete_out (v : BitVec 32) (s : State) :
    (complete v s).out = s.out := rfl

@[simp] theorem complete_pc (v : BitVec 32) (s : State) :
    (complete v s).pc = s.pc + 1 := rfl

@[simp] theorem complete_inputs (v : BitVec 32) (s : State) :
    (complete v s).inputs = s.inputs := rfl

@[simp] theorem complete_answers (v : BitVec 32) (s : State) :
    (complete v s).answers = s.answers := rfl

/-! ## raiseFault -/

@[simp] theorem raiseFault_cfg (c : FaultCode) (w : CmdWord) (s : State) :
    (raiseFault c w s).cfg = s.cfg := rfl

@[simp] theorem raiseFault_status (c : FaultCode) (w : CmdWord) (s : State) :
    (raiseFault c w s).status = statusOf c.bits s.statusReserved true s.initDone := rfl

@[simp] theorem raiseFault_resp (c : FaultCode) (w : CmdWord) (s : State) :
    (raiseFault c w s).resp = s.resp := rfl

@[simp] theorem raiseFault_fcmd (c : FaultCode) (w : CmdWord) (s : State) :
    (raiseFault c w s).fcmd = w := rfl

@[simp] theorem raiseFault_slot0 (c : FaultCode) (w : CmdWord) (s : State) :
    (raiseFault c w s).slot0 = s.slot0 := rfl

@[simp] theorem raiseFault_slot1 (c : FaultCode) (w : CmdWord) (s : State) :
    (raiseFault c w s).slot1 = s.slot1 := rfl

@[simp] theorem raiseFault_chan (c : FaultCode) (w : CmdWord) (s : State) :
    (raiseFault c w s).chan = s.chan := rfl

@[simp] theorem raiseFault_out (c : FaultCode) (w : CmdWord) (s : State) :
    (raiseFault c w s).out = s.out := rfl

@[simp] theorem raiseFault_pc (c : FaultCode) (w : CmdWord) (s : State) :
    (raiseFault c w s).pc = s.pc := rfl

@[simp] theorem raiseFault_inputs (c : FaultCode) (w : CmdWord) (s : State) :
    (raiseFault c w s).inputs = s.inputs := rfl

@[simp] theorem raiseFault_answers (c : FaultCode) (w : CmdWord) (s : State) :
    (raiseFault c w s).answers = s.answers := rfl

/-! ## setInitDone -/

@[simp] theorem setInitDone_cfg (s : State) :
    (s.setInitDone).cfg = s.cfg := rfl

@[simp] theorem setInitDone_status (s : State) :
    (s.setInitDone).status = statusOf s.fcode s.statusReserved s.faulted true := rfl

@[simp] theorem setInitDone_resp (s : State) :
    (s.setInitDone).resp = s.resp := rfl

@[simp] theorem setInitDone_fcmd (s : State) :
    (s.setInitDone).fcmd = s.fcmd := rfl

@[simp] theorem setInitDone_slot0 (s : State) :
    (s.setInitDone).slot0 = s.slot0 := rfl

@[simp] theorem setInitDone_slot1 (s : State) :
    (s.setInitDone).slot1 = s.slot1 := rfl

@[simp] theorem setInitDone_chan (s : State) :
    (s.setInitDone).chan = s.chan := rfl

@[simp] theorem setInitDone_out (s : State) :
    (s.setInitDone).out = s.out := rfl

@[simp] theorem setInitDone_pc (s : State) :
    (s.setInitDone).pc = s.pc := rfl

@[simp] theorem setInitDone_inputs (s : State) :
    (s.setInitDone).inputs = s.inputs := rfl

@[simp] theorem setInitDone_answers (s : State) :
    (s.setInitDone).answers = s.answers := rfl

/-! ## portEmit -/

@[simp] theorem portEmit_cfg (e : Transaction) (s : State) :
    (portEmit e s).cfg = s.cfg := rfl

@[simp] theorem portEmit_status (e : Transaction) (s : State) :
    (portEmit e s).status = s.status := rfl

@[simp] theorem portEmit_resp (e : Transaction) (s : State) :
    (portEmit e s).resp = s.resp := rfl

@[simp] theorem portEmit_fcmd (e : Transaction) (s : State) :
    (portEmit e s).fcmd = s.fcmd := rfl

@[simp] theorem portEmit_slot0 (e : Transaction) (s : State) :
    (portEmit e s).slot0 = s.slot0 := rfl

@[simp] theorem portEmit_slot1 (e : Transaction) (s : State) :
    (portEmit e s).slot1 = s.slot1 := rfl

@[simp] theorem portEmit_chan (e : Transaction) (s : State) :
    (portEmit e s).chan = shadowAfter s.chan e s.nextAnswer := rfl

@[simp] theorem portEmit_out (e : Transaction) (s : State) :
    (portEmit e s).out = s.out ++ [e] := rfl

@[simp] theorem portEmit_pc (e : Transaction) (s : State) :
    (portEmit e s).pc = s.pc := rfl

@[simp] theorem portEmit_inputs (e : Transaction) (s : State) :
    (portEmit e s).inputs = s.inputs := rfl

@[simp] theorem portEmit_answers (e : Transaction) (s : State) :
    (portEmit e s).answers = s.answers.tail := rfl

/-! ## applyReset -/

@[simp] theorem applyReset_cfg (s : State) :
    (applyReset s).cfg = s.cfg := rfl

@[simp] theorem applyReset_status (s : State) :
    (applyReset s).status = 0 := rfl

@[simp] theorem applyReset_resp (s : State) :
    (applyReset s).resp = 0 := rfl

@[simp] theorem applyReset_fcmd (s : State) :
    (applyReset s).fcmd = 0 := rfl

@[simp] theorem applyReset_slot0 (s : State) :
    (applyReset s).slot0 = Slot.reset := rfl

@[simp] theorem applyReset_slot1 (s : State) :
    (applyReset s).slot1 = Slot.reset := rfl

@[simp] theorem applyReset_chan (s : State) :
    (applyReset s).chan = Vector.replicate 16 .unwritten := rfl

@[simp] theorem applyReset_out (s : State) :
    (applyReset s).out = [] := rfl

@[simp] theorem applyReset_pc (s : State) :
    (applyReset s).pc = 0 := rfl

@[simp] theorem applyReset_inputs (s : State) :
    (applyReset s).inputs = s.inputs := rfl

@[simp] theorem applyReset_answers (s : State) :
    (applyReset s).answers = s.answers := rfl

/-! ## setSlot -/

@[simp] theorem setSlot_cfg (k : SlotId) (v : Slot) (s : State) :
    (s.setSlot k v).cfg = s.cfg := by cases k <;> rfl

@[simp] theorem setSlot_status (k : SlotId) (v : Slot) (s : State) :
    (s.setSlot k v).status = s.status := by cases k <;> rfl

@[simp] theorem setSlot_resp (k : SlotId) (v : Slot) (s : State) :
    (s.setSlot k v).resp = s.resp := by cases k <;> rfl

@[simp] theorem setSlot_fcmd (k : SlotId) (v : Slot) (s : State) :
    (s.setSlot k v).fcmd = s.fcmd := by cases k <;> rfl

@[simp] theorem setSlot_chan (k : SlotId) (v : Slot) (s : State) :
    (s.setSlot k v).chan = s.chan := by cases k <;> rfl

@[simp] theorem setSlot_out (k : SlotId) (v : Slot) (s : State) :
    (s.setSlot k v).out = s.out := by cases k <;> rfl

@[simp] theorem setSlot_pc (k : SlotId) (v : Slot) (s : State) :
    (s.setSlot k v).pc = s.pc := by cases k <;> rfl

@[simp] theorem setSlot_inputs (k : SlotId) (v : Slot) (s : State) :
    (s.setSlot k v).inputs = s.inputs := by cases k <;> rfl

@[simp] theorem setSlot_answers (k : SlotId) (v : Slot) (s : State) :
    (s.setSlot k v).answers = s.answers := by cases k <;> rfl

/-! ## Slots -/

@[simp] theorem slot_setSlot (k : SlotId) (v : Slot) (s : State) : (s.setSlot k v).slot k = v := by
  cases k <;> rfl

@[simp] theorem slot_setSlot_other (k : SlotId) (v : Slot) (s : State) :
    (s.setSlot k v).slot (otherSlot k) = s.slot (otherSlot k) := by
  cases k <;> rfl

theorem slot_setSlot_of_ne {j k : SlotId} (h : j ≠ k) (v : Slot) (s : State) :
    (s.setSlot k v).slot j = s.slot j := by
  cases j <;> cases k <;> simp_all [State.setSlot, State.slot]

@[simp] theorem slot_complete (v : BitVec 32) (s : State) (k : SlotId) : (complete v s).slot k = s.slot k := by
  cases k <;> rfl

@[simp] theorem slot_raiseFault (c : FaultCode) (w : CmdWord) (s : State) (k : SlotId) :
    (raiseFault c w s).slot k = s.slot k := by
  cases k <;> rfl

@[simp] theorem slot_setInitDone (s : State) (k : SlotId) : s.setInitDone.slot k = s.slot k := by
  cases k <;> rfl

@[simp] theorem slot_portEmit (e : Transaction) (s : State) (k : SlotId) : (portEmit e s).slot k = s.slot k := by
  cases k <;> rfl

@[simp] theorem slot_applyReset (s : State) (k : SlotId) : (applyReset s).slot k = Slot.reset := by
  cases k <;> rfl

theorem otherSlot_ne (k : SlotId) : otherSlot k ≠ k := by cases k <;> decide

theorem eq_or_eq_other (j k : SlotId) : j = k ∨ j = otherSlot k := by cases j <;> cases k <;> decide

/-! ## The flags of STATUS -/

/-- The four fields of a status built from fields (10_state R24). -/
theorem status_fields (code : BitVec 4) (rsv : BitVec 2) (f d : Bool) :
    (statusOf code rsv f d).getLsbD 0 = d ∧ (statusOf code rsv f d).getLsbD 1 = f ∧
    (statusOf code rsv f d).extractLsb' 2 2 = rsv ∧ (statusOf code rsv f d).extractLsb' 4 4 = code := by
  revert code rsv f d
  decide

/-- A status is built from its four fields (10_state R24). -/
theorem statusOf_fields (s : State) : statusOf s.fcode s.statusReserved s.faulted s.initDone = s.status := by
  have h : ∀ v : BitVec 8, statusOf (v.extractLsb' 4 4) (v.extractLsb' 2 2) (v.getLsbD 1) (v.getLsbD 0) = v := by
    decide
  exact h s.status


@[simp] theorem initDone_complete (v : BitVec 32) (s : State) : (complete v s).initDone = s.initDone := rfl

@[simp] theorem faulted_complete (v : BitVec 32) (s : State) : (complete v s).faulted = s.faulted := rfl

@[simp] theorem statusReserved_complete (v : BitVec 32) (s : State) : (complete v s).statusReserved = s.statusReserved := rfl

@[simp] theorem fcode_complete (v : BitVec 32) (s : State) : (complete v s).fcode = s.fcode := rfl

@[simp] theorem initDone_portEmit (e : Transaction) (s : State) : (portEmit e s).initDone = s.initDone := rfl

@[simp] theorem faulted_portEmit (e : Transaction) (s : State) : (portEmit e s).faulted = s.faulted := rfl

@[simp] theorem statusReserved_portEmit (e : Transaction) (s : State) : (portEmit e s).statusReserved = s.statusReserved := rfl

@[simp] theorem fcode_portEmit (e : Transaction) (s : State) : (portEmit e s).fcode = s.fcode := rfl

@[simp] theorem initDone_applyReset (s : State) : (applyReset s).initDone = false := by
  simp [State.initDone]

@[simp] theorem faulted_applyReset (s : State) : (applyReset s).faulted = false := by
  simp [State.faulted]

@[simp] theorem statusReserved_applyReset (s : State) : (applyReset s).statusReserved = 0 := by
  simp [State.statusReserved]

@[simp] theorem fcode_applyReset (s : State) : (applyReset s).fcode = 0 := by
  simp [State.fcode]

@[simp] theorem initDone_setSlot (k : SlotId) (v : Slot) (s : State) : (s.setSlot k v).initDone = s.initDone := by
  cases k <;> rfl

@[simp] theorem faulted_setSlot (k : SlotId) (v : Slot) (s : State) : (s.setSlot k v).faulted = s.faulted := by
  cases k <;> rfl

@[simp] theorem statusReserved_setSlot (k : SlotId) (v : Slot) (s : State) : (s.setSlot k v).statusReserved = s.statusReserved := by
  cases k <;> rfl

@[simp] theorem fcode_setSlot (k : SlotId) (v : Slot) (s : State) : (s.setSlot k v).fcode = s.fcode := by
  cases k <;> rfl

@[simp] theorem initDone_setInitDone (s : State) : s.setInitDone.initDone = true :=
  (status_fields _ _ _ _).1

@[simp] theorem faulted_setInitDone (s : State) : s.setInitDone.faulted = s.faulted :=
  (status_fields _ _ _ _).2.1

@[simp] theorem statusReserved_setInitDone (s : State) : s.setInitDone.statusReserved = s.statusReserved :=
  (status_fields _ _ _ _).2.2.1

@[simp] theorem fcode_setInitDone (s : State) : s.setInitDone.fcode = s.fcode :=
  (status_fields _ _ _ _).2.2.2

@[simp] theorem initDone_raiseFault (c : FaultCode) (w : CmdWord) (s : State) :
    (raiseFault c w s).initDone = s.initDone := (status_fields _ _ _ _).1

@[simp] theorem faulted_raiseFault (c : FaultCode) (w : CmdWord) (s : State) :
    (raiseFault c w s).faulted = true := (status_fields _ _ _ _).2.1

@[simp] theorem statusReserved_raiseFault (c : FaultCode) (w : CmdWord) (s : State) :
    (raiseFault c w s).statusReserved = s.statusReserved := (status_fields _ _ _ _).2.2.1

@[simp] theorem fcode_raiseFault (c : FaultCode) (w : CmdWord) (s : State) :
    (raiseFault c w s).fcode = c.bits := (status_fields _ _ _ _).2.2.2

/-! ## Channels -/

@[simp] theorem setChannel_get_same (c : Vector ChanValue 16) (ch : Channel) (v : ChanValue) :
    (setChannel c ch v).get ⟨ch.toNat, ch.isLt⟩ = v := by
  simp [setChannel, Vector.get_eq_getElem]

theorem setChannel_get_other (c : Vector ChanValue 16) {ch other : Channel} (v : ChanValue) (h : other ≠ ch) :
    (setChannel c ch v).get ⟨other.toNat, other.isLt⟩ = c.get ⟨other.toNat, other.isLt⟩ := by
  have hn : ch.toNat ≠ other.toNat := fun e => h (BitVec.eq_of_toNat_eq e.symm)
  simp [setChannel, Vector.get_eq_getElem, hn]

@[simp] theorem chanAt_applyReset (s : State) (ch : Channel) : (applyReset s).chanAt ch = .unwritten := by
  simp [State.chanAt]

end Sys2Proof.Machine
end

