-- ==== Sys2Proof/Laws/Ops.lean ====
section
/-! SUPPORT. What each shared operation can do, said once: the stream of transactions, the run of a command, the
checks. Callers cite these and do not unfold the operations. -/

namespace Sys2Proof.Machine

/-! ## The stream of transactions -/

/-- What a stream of transactions leaves when the Port accepts them all. -/
def emitted (ts : List Transaction) (s : State) : State :=
  { s with out := s.out ++ ts, chan := acceptAll s.chan ts, answers := s.answers.drop ts.length }

/-- What a stream leaves when the Port accepts those of `before` and answers `last` with a bus fault. -/
def emittedFault (before : List Transaction) (last : Transaction) (s : State) : State :=
  { s with
    out := s.out ++ (before ++ [last])
    chan := shadowAfter (acceptAll s.chan before) last .busFault
    answers := s.answers.drop (before.length + 1) }

/-! The fields a stream of transactions leaves. -/

@[simp] theorem emitted_cfg (ts : List Transaction) (s : State) : (emitted ts s).cfg = s.cfg := rfl

@[simp] theorem emitted_status (ts : List Transaction) (s : State) : (emitted ts s).status = s.status := rfl

@[simp] theorem emitted_resp (ts : List Transaction) (s : State) : (emitted ts s).resp = s.resp := rfl

@[simp] theorem emitted_fcmd (ts : List Transaction) (s : State) : (emitted ts s).fcmd = s.fcmd := rfl

@[simp] theorem emitted_slot0 (ts : List Transaction) (s : State) : (emitted ts s).slot0 = s.slot0 := rfl

@[simp] theorem emitted_slot1 (ts : List Transaction) (s : State) : (emitted ts s).slot1 = s.slot1 := rfl

@[simp] theorem emitted_pc (ts : List Transaction) (s : State) : (emitted ts s).pc = s.pc := rfl

@[simp] theorem emitted_inputs (ts : List Transaction) (s : State) : (emitted ts s).inputs = s.inputs := rfl

@[simp] theorem emitted_initDone (ts : List Transaction) (s : State) : (emitted ts s).initDone = s.initDone := rfl

@[simp] theorem emitted_faulted (ts : List Transaction) (s : State) : (emitted ts s).faulted = s.faulted := rfl

@[simp] theorem emitted_fcode (ts : List Transaction) (s : State) : (emitted ts s).fcode = s.fcode := rfl

@[simp] theorem emitted_statusReserved (ts : List Transaction) (s : State) : (emitted ts s).statusReserved = s.statusReserved := rfl

@[simp] theorem emitted_slot (ts : List Transaction) (s : State) (k : SlotId) : (emitted ts s).slot k = s.slot k := by
  cases k <;> rfl

@[simp] theorem emittedFault_cfg (b : List Transaction) (l : Transaction) (s : State) :
    (emittedFault b l s).cfg = s.cfg := rfl

@[simp] theorem emittedFault_status (b : List Transaction) (l : Transaction) (s : State) :
    (emittedFault b l s).status = s.status := rfl

@[simp] theorem emittedFault_resp (b : List Transaction) (l : Transaction) (s : State) :
    (emittedFault b l s).resp = s.resp := rfl

@[simp] theorem emittedFault_fcmd (b : List Transaction) (l : Transaction) (s : State) :
    (emittedFault b l s).fcmd = s.fcmd := rfl

@[simp] theorem emittedFault_slot0 (b : List Transaction) (l : Transaction) (s : State) :
    (emittedFault b l s).slot0 = s.slot0 := rfl

@[simp] theorem emittedFault_slot1 (b : List Transaction) (l : Transaction) (s : State) :
    (emittedFault b l s).slot1 = s.slot1 := rfl

@[simp] theorem emittedFault_pc (b : List Transaction) (l : Transaction) (s : State) :
    (emittedFault b l s).pc = s.pc := rfl

@[simp] theorem emittedFault_inputs (b : List Transaction) (l : Transaction) (s : State) :
    (emittedFault b l s).inputs = s.inputs := rfl

@[simp] theorem emittedFault_initDone (b : List Transaction) (l : Transaction) (s : State) :
    (emittedFault b l s).initDone = s.initDone := rfl

@[simp] theorem emittedFault_faulted (b : List Transaction) (l : Transaction) (s : State) :
    (emittedFault b l s).faulted = s.faulted := rfl

@[simp] theorem emittedFault_fcode (b : List Transaction) (l : Transaction) (s : State) :
    (emittedFault b l s).fcode = s.fcode := rfl

@[simp] theorem emittedFault_statusReserved (b : List Transaction) (l : Transaction) (s : State) :
    (emittedFault b l s).statusReserved = s.statusReserved := rfl

@[simp] theorem emittedFault_slot (b : List Transaction) (l : Transaction) (s : State) (k : SlotId) :
    (emittedFault b l s).slot k = s.slot k := by
  cases k <;> rfl

theorem nextAnswer_of_getElem {s : State} {a : PortAnswer} (h : s.answers[0]? = some a) : s.nextAnswer = a := by
  cases hs : s.answers <;> simp_all [State.nextAnswer]

theorem portAccepts_zero (s : State) : s.PortAccepts 0 := by simp [State.PortAccepts]

/-- The Port accepts n + 1 transactions: the next answer, and n after it. -/
theorem portAccepts_succ {s : State} {n : Nat} (h : s.PortAccepts (n + 1)) (e : Transaction) :
    s.nextAnswer = .accepted ∧ (portEmit e s).PortAccepts n := by
  unfold State.PortAccepts at *
  cases hs : s.answers with
  | nil => simp [State.nextAnswer, hs]
  | cons a rest =>
    rw [hs] at h
    simp only [List.take_succ_cons, List.mem_cons, forall_eq_or_imp] at h
    refine ⟨by simp [State.nextAnswer, hs, h.1], fun b hb => h.2 b ?_⟩
    simpa [hs] using hb

theorem portAccepts_mono {s : State} {m n : Nat} (hmn : m ≤ n) (h : s.PortAccepts n) : s.PortAccepts m :=
  fun a ha => h a ((List.take_subset_take_left s.answers hmn) ha)

/-- The Port's acceptance depends on its answers alone. -/
theorem portAccepts_of_answers {s t : State} {m n : Nat} (h : t.answers = s.answers.drop m)
    (hs : s.PortAccepts (m + n)) : t.PortAccepts n := by
  intro a ha
  apply hs a
  rw [h] at ha
  rw [List.take_add]
  exact List.mem_append_right _ ha

/-- All accepted. -/
theorem emitAll_accepted (ts : List Transaction) (s : State) (h : s.PortAccepts ts.length) :
    emitAll ts s = (emitted ts s, .accepted) := by
  induction ts generalizing s with
  | nil => simp [emitAll, emitted, acceptAll]
  | cons e rest ih =>
    obtain ⟨ha, hr⟩ := portAccepts_succ (n := rest.length) h e
    rw [emitAll, ha]
    simp only
    rw [ih _ hr]
    simp [emitted, acceptAll, portEmit, ha]

/-- The first bus fault ends the stream. -/
theorem emitAll_fault (before : List Transaction) (last : Transaction) (rest : List Transaction) (s : State)
    (h : s.PortFaultsAfter before.length) :
    emitAll (before ++ last :: rest) s = (emittedFault before last s, .busFault) := by
  induction before generalizing s with
  | nil =>
    have ha : s.nextAnswer = .busFault := nextAnswer_of_getElem h.2
    simp [emitAll, ha, emittedFault, acceptAll, portEmit]
  | cons e before ih =>
    obtain ⟨ha, hr⟩ := portAccepts_succ (n := before.length) h.1 e
    have hf : (portEmit e s).PortFaultsAfter before.length := by
      refine ⟨hr, ?_⟩
      have h2 := h.2
      cases hs : s.answers <;> simp_all
    rw [List.cons_append, emitAll, ha]
    simp only
    rw [ih _ hf]
    simp [emittedFault, acceptAll, portEmit, ha]

/-- Either the Port accepts the next n transactions, or it accepts j of them and faults the one after. -/
theorem portAccepts_or_faults (s : State) (n : Nat) : s.PortAccepts n ∨ ∃ j < n, s.PortFaultsAfter j := by
  induction n with
  | zero => exact .inl (portAccepts_zero s)
  | succ n ih =>
    rcases ih with ih | ⟨j, hj, hf⟩
    · cases hn : s.answers[n]? with
      | none =>
        left
        intro a ha
        rw [List.take_add_one, hn] at ha
        exact ih a (by simpa using ha)
      | some b =>
        cases b with
        | accepted =>
          left
          intro a ha
          rw [List.take_add_one, hn] at ha
          simp only [Option.toList_some, List.mem_append, List.mem_singleton] at ha
          exact ha.elim (ih a) id
        | busFault => exact .inr ⟨n, Nat.lt_succ_self n, ih, hn⟩
    · exact .inr ⟨j, Nat.lt_succ_of_lt hj, hf⟩

/-- Everything a stream of transactions can do. -/
theorem emitAll_cases (ts : List Transaction) (s : State) :
    (s.PortAccepts ts.length ∧ emitAll ts s = (emitted ts s, .accepted)) ∨
    ∃ before last rest, ts = before ++ last :: rest ∧ s.PortFaultsAfter before.length ∧
      emitAll ts s = (emittedFault before last s, .busFault) := by
  rcases portAccepts_or_faults s ts.length with h | ⟨j, hj, hf⟩
  · exact .inl ⟨h, emitAll_accepted ts s h⟩
  · refine .inr ⟨ts.take j, ts[j], ts.drop (j + 1), ?_, ?_, ?_⟩
    · rw [List.getElem_cons_drop, List.take_append_drop]
    · rwa [List.length_take_of_le hj.le]
    · conv_lhs => rw [← List.take_append_drop j ts, ← List.getElem_cons_drop hj]
      exact emitAll_fault _ _ _ _ (by rwa [List.length_take_of_le hj.le])

/-- Everything the transactions of a command can do: it finishes, or a bus fault ends it. -/
theorem transmit_cases (w : CmdWord) (ts : List Transaction) (finish : State → State) (s : State) :
    (s.PortAccepts ts.length ∧ transmit w ts finish s = finish (emitted ts s)) ∨
    ∃ before last rest, ts = before ++ last :: rest ∧ s.PortFaultsAfter before.length ∧
      transmit w ts finish s = raiseFault .bus w (emittedFault before last s) := by
  rcases emitAll_cases ts s with ⟨h, he⟩ | ⟨b, l, r, hts, hf, he⟩
  · exact .inl ⟨h, by rw [transmit, he]⟩
  · exact .inr ⟨b, l, r, hts, hf, by rw [transmit, he]⟩

theorem transmit_accepted (w : CmdWord) (ts : List Transaction) (finish : State → State) (s : State)
    (h : s.PortAccepts ts.length) : transmit w ts finish s = finish (emitted ts s) := by
  rw [transmit, emitAll_accepted ts s h]

theorem transmit_fault (w : CmdWord) (before : List Transaction) (last : Transaction) (rest : List Transaction)
    (finish : State → State) (s : State) (h : s.PortFaultsAfter before.length) :
    transmit w (before ++ last :: rest) finish s = raiseFault .bus w (emittedFault before last s) := by
  rw [transmit, emitAll_fault before last rest s h]

/-! ## The shadow -/

/-- A channel of the state is that channel of its shadow. -/
theorem chanAt_eq_shadowAt (s : State) (ch : Channel) : s.chanAt ch = shadowAt s.chan ch := rfl

/-- A channel no transaction writes keeps its shadow. -/
theorem acceptAll_of_not_written (c : Vector ChanValue 16) (ts : List Transaction) (ch : Channel)
    (h : ∀ e ∈ ts, ∀ on off, e ≠ .pwm ch on off) :
    (acceptAll c ts).get ⟨ch.toNat, ch.isLt⟩ = c.get ⟨ch.toNat, ch.isLt⟩ := by
  induction ts generalizing c with
  | nil => rfl
  | cons e rest ih =>
    have hr := ih (shadowAfter c e .accepted) (fun x hx => h x (List.mem_cons_of_mem _ hx))
    have he := h e (List.mem_cons_self)
    refine hr.trans ?_
    cases e with
    | busOpen a => rfl
    | freq f => rfl
    | pwm c' on off =>
      have hne : ch ≠ c' := fun e => he on off (by rw [e])
      exact setChannel_get_other c _ hne

theorem acceptAll_append (c : Vector ChanValue 16) (ts us : List Transaction) :
    acceptAll c (ts ++ us) = acceptAll (acceptAll c ts) us := List.foldl_append

/-- A channel holds the pair of the last transaction that writes it. -/
theorem acceptAll_of_last (c : Vector ChanValue 16) (ts us : List Transaction) (ch : Channel) (on off : Half)
    (h : ∀ e ∈ us, ∀ on off, e ≠ .pwm ch on off) :
    (acceptAll c (ts ++ .pwm ch on off :: us)).get ⟨ch.toNat, ch.isLt⟩ = .pair on off := by
  rw [acceptAll_append]
  exact (acceptAll_of_not_written _ us ch h).trans (setChannel_get_same _ ch _)

/-! ## The run of a command -/

theorem runCommand_ok {α : Type} {w : CmdWord} {s : State} {checks : Except FaultCode α} {effect : α → Outcome} {a : α}
    (hf : s.faulted = false) (hc : checks = .ok a) : runCommand w s checks effect = effect a := by
  simp [runCommand, hf, hc]

theorem runCommand_error {α : Type} {w : CmdWord} {s : State} {checks : Except FaultCode α} {effect : α → Outcome}
    {code : FaultCode} (hf : s.faulted = false) (hc : checks = .error code) :
    runCommand w s checks effect = .next (raiseFault code w s) := by
  simp [runCommand, hf, hc]

theorem runCommand_halted {α : Type} {w : CmdWord} {s : State} {checks : Except FaultCode α} {effect : α → Outcome}
    (hf : s.faulted = true) : runCommand w s checks effect = .fault .halted := by
  simp [runCommand, hf]

theorem illegalCommand_halted {w : CmdWord} {s : State} (hf : s.faulted = true) :
    illegalCommand w s = .fault .halted := runCommand_halted hf

theorem illegalCommand_next {w : CmdWord} {s : State} (hf : s.faulted = false) :
    illegalCommand w s = .next (raiseFault .illegal w s) := runCommand_error hf rfl

/-- Everything a command can do. -/
theorem runCommand_cases {α : Type} (w : CmdWord) (s : State) (checks : Except FaultCode α) (effect : α → Outcome) :
    (s.faulted = true ∧ runCommand w s checks effect = .fault .halted) ∨
    (s.faulted = false ∧ ∃ code, checks = .error code ∧ runCommand w s checks effect = .next (raiseFault code w s)) ∨
    (s.faulted = false ∧ ∃ a, checks = .ok a ∧ runCommand w s checks effect = effect a) := by
  cases hf : s.faulted
  · cases hc : checks with
    | error code => exact .inr (.inl ⟨rfl, code, rfl, runCommand_error hf rfl⟩)
    | ok a => exact .inr (.inr ⟨rfl, a, rfl, runCommand_ok hf rfl⟩)
  · exact .inl ⟨rfl, runCommand_halted hf⟩

/-- A next state comes from a fault of the checks or from the effect. -/
theorem runCommand_next {α : Type} {w : CmdWord} {s t : State} {checks : Except FaultCode α} {effect : α → Outcome}
    (h : runCommand w s checks effect = .next t) :
    s.faulted = false ∧
    ((∃ code, checks = .error code ∧ t = raiseFault code w s) ∨ ∃ a, checks = .ok a ∧ effect a = .next t) := by
  rcases runCommand_cases w s checks effect with ⟨_, he⟩ | ⟨hf, code, hc, he⟩ | ⟨hf, a, hc, he⟩
  · rw [he] at h; cases h
  · rw [he] at h; cases h; exact ⟨hf, .inl ⟨code, hc, rfl⟩⟩
  · rw [he] at h; exact ⟨hf, .inr ⟨a, hc, h⟩⟩

/-! ## The checks -/

theorem initialised_ok {s : State} (h : s.initDone = true) : initialised s = .ok () := by
  simp [initialised, h]

theorem initialised_error {s : State} (h : s.initDone = false) : initialised s = .error .uninit := by
  simp [initialised, h]

theorem slotChecks_ok {mn : MotorNumber} {s : State} {k : SlotId} (hi : s.initDone = true) (h : s.Resolves mn k) :
    slotChecks mn s = .ok k := by
  simp [slotChecks, initialised, hi, resolveSlot, h.1, h.2]

/-- What a successful resolution says (41_motor_driver R100). -/
theorem slotChecks_ok_iff (mn : MotorNumber) (s : State) (k : SlotId) :
    slotChecks mn s = .ok k ↔ s.initDone = true ∧ s.Resolves mn k := by
  refine ⟨fun h => ?_, fun h => slotChecks_ok h.1 h.2⟩
  unfold slotChecks initialised resolveSlot at h
  cases hi : s.initDone
  · simp [hi] at h
  · cases hs : slotOf mn with
    | none => simp [hi, hs] at h
    | some j =>
      cases hc : (s.slot j).claimed
      · simp [hi, hs, hc] at h
      · simp only [hi, hs, hc, if_true, Except.ok.injEq] at h
        exact ⟨rfl, by rw [hs, h], by rw [← h, hc]⟩

/-- A raised fault as the statements describe it. -/
theorem raisedFault_raiseFault (code : FaultCode) (w : CmdWord) (s : State) :
    RaisedFault code w s (raiseFault code w s) := by
  simp [RaisedFault, SameOutside]

theorem raisesPrecisely_of {code : FaultCode} {i : Instr} {s : State}
    (h : exec i s = .next (raiseFault code (encode i) s)) : RaisesPrecisely code i s :=
  ⟨_, h, raisedFault_raiseFault code _ s, ⟨rfl, rfl⟩, ⟨rfl, rfl, rfl⟩⟩

end Sys2Proof.Machine
end

