-- ==== Sys2Proof/Laws/Exec.lean ====
section
/-! SUPPORT. What a command can do, said once: a next state of `exec` is a recorded fault or the effect of the
command's rule; and what a step can do. Invariants are proved from these, not from `exec` unfolded. -/

namespace Sys2Proof.Machine

/-- The effect of a command whose checks have passed, as a relation: the conditions its checks established and the
state its rule leads to. -/
def Effect (i : Instr) (s t : State) : Prop :=
  match i with
  | .init f => s.initDone = false ∧ f ≠ 0 ∧
      t = transmit (encode (.init f)) (initTransactions s.cfg f) (fun u => complete 0 u.setInitDone) s
  | .setDuty ch v => s.initDone = true ∧ t = transmit (encode (.setDuty ch v)) [dutyTransaction ch v] (complete 0) s
  | .setRail ch high => s.initDone = true ∧
      t = transmit (encode (.setRail ch high)) [railTransaction ch high] (complete 0) s
  | .claim mn steps => s.initDone = true ∧
      ((claimTarget mn s = none ∧ t = complete (claimHandle mn) s) ∨
       ∃ k, claimTarget mn s = some k ∧ badRevolution s.cfg steps = false ∧
         t = complete (claimHandle mn) (configureSlot k steps s))
  | .advance mn dir => s.initDone = true ∧ ∃ k e, s.Resolves mn k ∧
      excite s.cfg (moveSlot s.cfg dir (s.slot k)).phase.toNat = some e ∧
      t = transmit (encode (.advance mn dir)) (advanceTransactions (s.cfg.pins k) e)
        (complete (zext32 (moveSlot s.cfg dir (s.slot k)).pos)) (s.setSlot k (moveSlot s.cfg dir (s.slot k)))
  | .release mn => s.initDone = true ∧ ∃ k, s.Resolves mn k ∧
      t = transmit (encode (.release mn)) (releaseTransactions (s.cfg.pins k)) (complete 0) s
  | .setTarget mn p => s.initDone = true ∧ ∃ k, s.Resolves mn k ∧
      t = complete 0 (s.setSlot k { s.slot k with target := p, tgtW := true })
  | .setPosition mn p => s.initDone = true ∧ ∃ k, s.Resolves mn k ∧ p.toNat < (s.slot k).nrev.toNat ∧
      t = complete 0 (s.setSlot k { s.slot k with pos := p })
  | .isAtTarget mn => s.initDone = true ∧ ∃ k, s.Resolves mn k ∧ (s.slot k).tgtW = true ∧
      t = complete (boolResult (decide ((s.slot k).pos = (s.slot k).target))) s
  | .getPosition mn => s.initDone = true ∧ ∃ k, s.Resolves mn k ∧ t = complete (zext32 (s.slot k).pos) s
  | .setSpeed mn rpm => s.initDone = true ∧ ∃ k, s.Resolves mn k ∧ rpm ≠ 0 ∧
      t = complete 0 (s.setSlot k { s.slot k with speed := speedInterval (s.slot k).nrev rpm, spdW := true })
  | .getSpeed mn => s.initDone = true ∧ ∃ k, s.Resolves mn k ∧ (s.slot k).spdW = true ∧
      t = complete (s.slot k).speed s
  | .reserved0 _ => False
  | .reservedD _ => False
  | .reservedE _ => False
  | .reservedF _ => False

theorem initialised_ok_iff (s : State) (u : Unit) : initialised s = .ok u ↔ s.initDone = true := by
  cases h : s.initDone <;> simp [initialised, h]

theorem initialised_error_code {s : State} {c : FaultCode} (h : initialised s = .error c) : c ≠ .bus := by
  cases hd : s.initDone <;> simp [initialised, hd] at h
  rw [← h]; decide

theorem slotChecks_error_code {mn : MotorNumber} {s : State} {c : FaultCode} (h : slotChecks mn s = .error c) :
    c ≠ .bus := by
  unfold slotChecks at h
  cases hi : initialised s with
  | error e => rw [hi] at h; cases h; exact initialised_error_code hi
  | ok u =>
    rw [hi] at h
    unfold resolveSlot at h
    cases hs : slotOf mn with
    | none => simp [hs] at h; rw [← h]; decide
    | some k =>
      cases hc : (s.slot k).claimed <;> simp [hs, hc] at h
      rw [← h]; decide

/-- A check of a slot's own after the slot's resolution: where it can fail, and what its success says. -/
theorem after_slotChecks {mn : MotorNumber} {s : State} {code : FaultCode} {p : SlotId → Prop} [DecidablePred p]
    {r : Except FaultCode SlotId}
    (hr : r = match slotChecks mn s with
      | .error c => .error c
      | .ok k => if p k then .error code else .ok k)
    (hcode : code ≠ .bus) :
    (∀ c, r = .error c → c ≠ .bus) ∧ (∀ k, r = .ok k → s.initDone = true ∧ s.Resolves mn k ∧ ¬ p k) := by
  subst hr
  cases hs : slotChecks mn s with
  | error c =>
    refine ⟨fun d hd => ?_, fun k hk => ?_⟩
    · cases hd; exact slotChecks_error_code hs
    · cases hk
  | ok j =>
    have hj := (slotChecks_ok_iff mn s j).1 hs
    by_cases hp : p j
    · refine ⟨fun d hd => ?_, fun k hk => ?_⟩
      · simp only [hp, if_true] at hd; cases hd; exact hcode
      · simp only [hp, if_true] at hk; cases hk
    · refine ⟨fun d hd => ?_, fun k hk => ?_⟩
      · simp only [hp, if_false] at hd; cases hd
      · simp only [hp, if_false] at hk; cases hk; exact ⟨hj.1, hj.2, hp⟩

/-- Everything a command can do when it has a next state. -/
theorem exec_next {i : Instr} {s t : State} (h : exec i s = .next t) :
    s.faulted = false ∧
    ((∃ code, code ≠ .bus ∧ t = raiseFault code (encode i) s) ∨ Effect i s t) := by
  have slot : ∀ {w : CmdWord} {mn : MotorNumber} {effect : SlotId → Outcome},
      runCommand w s (slotChecks mn s) effect = .next t → s.faulted = false ∧
      ((∃ code, code ≠ .bus ∧ t = raiseFault code w s) ∨
        s.initDone = true ∧ ∃ k, s.Resolves mn k ∧ effect k = .next t) := by
    intro w mn effect h
    obtain ⟨hf, ⟨c, hc, ht⟩ | ⟨k, hk, he⟩⟩ := runCommand_next h
    · exact ⟨hf, .inl ⟨c, slotChecks_error_code hc, ht⟩⟩
    · have := (slotChecks_ok_iff mn s k).1 hk
      exact ⟨hf, .inr ⟨this.1, k, this.2, he⟩⟩
  have own : ∀ {w : CmdWord} {mn : MotorNumber} {effect : SlotId → Outcome} {r : Except FaultCode SlotId}
      {q : SlotId → Prop},
      ((∀ c, r = .error c → c ≠ .bus) ∧ (∀ k, r = .ok k → s.initDone = true ∧ s.Resolves mn k ∧ q k)) →
      runCommand w s r effect = .next t → s.faulted = false ∧
      ((∃ code, code ≠ .bus ∧ t = raiseFault code w s) ∨
        s.initDone = true ∧ ∃ k, s.Resolves mn k ∧ q k ∧ effect k = .next t) := by
    intro w mn effect r q hr h
    obtain ⟨hf, ⟨c, hc, ht⟩ | ⟨k, hk, he⟩⟩ := runCommand_next h
    · exact ⟨hf, .inl ⟨c, hr.1 c hc, ht⟩⟩
    · obtain ⟨h1, h2, h3⟩ := hr.2 k hk
      exact ⟨hf, .inr ⟨h1, k, h2, h3, he⟩⟩
  have port : ∀ {w : CmdWord} {u : State},
      runCommand w s (initialised s) (fun _ => .next u) = .next t → s.faulted = false ∧
      ((∃ code, code ≠ .bus ∧ t = raiseFault code w s) ∨ s.initDone = true ∧ t = u) := by
    intro w u h
    obtain ⟨hf, ⟨c, hc, ht⟩ | ⟨a, ha, he⟩⟩ := runCommand_next h
    · exact ⟨hf, .inl ⟨c, initialised_error_code hc, ht⟩⟩
    · cases he; exact ⟨hf, .inr ⟨(initialised_ok_iff s a).1 ha, rfl⟩⟩
  have illegal : ∀ {w : CmdWord}, illegalCommand w s = .next t → s.faulted = false ∧
      ∃ code, code ≠ .bus ∧ t = raiseFault code w s := by
    intro w h
    obtain ⟨hf, ⟨c, hc, ht⟩ | ⟨a, ha, he⟩⟩ := runCommand_next h
    · cases hc; exact ⟨hf, _, by decide, ht⟩
    · cases ha
  cases i with
  | init f =>
    obtain ⟨hf, ⟨c, hc, ht⟩ | ⟨a, ha, he⟩⟩ := runCommand_next (checks := initChecks f s) h
    · refine ⟨hf, .inl ⟨c, ?_, ht⟩⟩
      unfold initChecks at hc
      split at hc
      · cases hc; decide
      · split at hc <;> cases hc; decide
    · cases he
      unfold initChecks at ha
      split at ha
      · cases ha
      · rename_i hd
        split at ha
        · cases ha
        · rename_i h0; exact ⟨hf, .inr ⟨Bool.eq_false_iff.2 hd, h0, rfl⟩⟩
  | setDuty ch v => exact port h
  | setRail ch high => exact port h
  | claim mn steps =>
    obtain ⟨hf, ⟨c, hc, ht⟩ | ⟨a, ha, he⟩⟩ := runCommand_next (checks := claimChecks mn steps s) h
    · refine ⟨hf, .inl ⟨c, ?_, ht⟩⟩
      unfold claimChecks at hc
      split at hc
      · rename_i e hi; cases hc; exact initialised_error_code hi
      · split at hc
        · cases hc
        · split at hc <;> cases hc; decide
    · refine ⟨hf, .inr ?_⟩
      unfold claimChecks at ha
      split at ha
      · cases ha
      · rename_i u hi
        have hd := (initialised_ok_iff s u).1 hi
        split at ha
        · rename_i ht; cases ha; cases he; exact ⟨hd, .inl ⟨ht, rfl⟩⟩
        · rename_i k hk
          split at ha
          · cases ha
          · rename_i hb; cases ha; cases he
            exact ⟨hd, .inr ⟨k, hk, Bool.eq_false_iff.2 hb, rfl⟩⟩
  | advance mn dir =>
    obtain ⟨hf, hc | ⟨hd, k, hk, he⟩⟩ := slot h
    · exact ⟨hf, .inl hc⟩
    · refine ⟨hf, .inr ?_⟩
      revert he
      simp only
      split
      · intro he; cases he
      · rename_i e hx; intro he; cases he; exact ⟨hd, k, e, hk, hx, rfl⟩
  | release mn =>
    obtain ⟨hf, hc | ⟨hd, k, hk, he⟩⟩ := slot h
    · exact ⟨hf, .inl hc⟩
    · cases he; exact ⟨hf, .inr ⟨hd, k, hk, rfl⟩⟩
  | setTarget mn p =>
    obtain ⟨hf, hc | ⟨hd, k, hk, he⟩⟩ := slot h
    · exact ⟨hf, .inl hc⟩
    · cases he; exact ⟨hf, .inr ⟨hd, k, hk, rfl⟩⟩
  | setPosition mn p =>
    obtain ⟨hf, hc | ⟨hd, k, hk, hq, he⟩⟩ := own (after_slotChecks (r := setPositionChecks mn p s) rfl (by decide)) h
    · exact ⟨hf, .inl hc⟩
    · cases he; exact ⟨hf, .inr ⟨hd, k, hk, by omega, rfl⟩⟩
  | isAtTarget mn =>
    obtain ⟨hf, hc | ⟨hd, k, hk, hq, he⟩⟩ :=
      own (after_slotChecks (r := isAtTargetChecks mn s) (p := fun k => ¬ (s.slot k).tgtW = true) (code := .unwritten)
        (by simp only [isAtTargetChecks, ite_not]; rfl) (by decide)) h
    · exact ⟨hf, .inl hc⟩
    · cases he; exact ⟨hf, .inr ⟨hd, k, hk, by simpa using hq, rfl⟩⟩
  | getPosition mn =>
    obtain ⟨hf, hc | ⟨hd, k, hk, he⟩⟩ := slot h
    · exact ⟨hf, .inl hc⟩
    · cases he; exact ⟨hf, .inr ⟨hd, k, hk, rfl⟩⟩
  | setSpeed mn rpm =>
    obtain ⟨hf, hc | ⟨hd, k, hk, hq, he⟩⟩ := own (after_slotChecks (r := setSpeedChecks mn rpm s) rfl (by decide)) h
    · exact ⟨hf, .inl hc⟩
    · cases he; exact ⟨hf, .inr ⟨hd, k, hk, hq, rfl⟩⟩
  | getSpeed mn =>
    obtain ⟨hf, hc | ⟨hd, k, hk, hq, he⟩⟩ :=
      own (after_slotChecks (r := getSpeedChecks mn s) (p := fun k => ¬ (s.slot k).spdW = true) (code := .unwritten)
        (by simp only [getSpeedChecks, ite_not]; rfl) (by decide)) h
    · exact ⟨hf, .inl hc⟩
    · cases he; exact ⟨hf, .inr ⟨hd, k, hk, by simpa using hq, rfl⟩⟩
  | reserved0 low => exact ⟨(illegal h).1, .inl (illegal h).2⟩
  | reservedD low => exact ⟨(illegal h).1, .inl (illegal h).2⟩
  | reservedE low => exact ⟨(illegal h).1, .inl (illegal h).2⟩
  | reservedF low => exact ⟨(illegal h).1, .inl (illegal h).2⟩

/-- Everything a step can do when it has a next state: nothing but taking an interaction from the host; a reset; an
illegal word's fault; or one command, in the state with its word taken from the host. -/
theorem step_next {s t : State} (h : step s = .next t) :
    (∃ rest, t = { s with inputs := rest }) ∨
    (∃ rest, t = applyReset { s with inputs := rest }) ∨
    (∃ rest w, s.faulted = false ∧ t = raiseFault .illegal w { s with inputs := rest }) ∨
    (∃ rest w i, decode w = .ok i ∧ exec i { s with inputs := rest } = .next t) := by
  unfold step at h
  cases hs : serve s with
  | settled u =>
    rw [hs] at h; cases h
    unfold serve at hs
    split at hs
    · cases hs; exact .inl ⟨s.inputs, rfl⟩
    · cases hs; exact .inl ⟨_, rfl⟩
    · cases hs; exact .inr (.inl ⟨_, rfl⟩)
    · split at hs
      · split at hs <;> cases hs; exact .inr (.inl ⟨_, rfl⟩)
      · cases hs
  | stuck => rw [hs] at h; cases h
  | execute w u =>
    rw [hs] at h
    unfold serve at hs
    split at hs
    · cases hs
    · cases hs
    · cases hs
    · rename_i w' rest hin
      split at hs
      · split at hs <;> cases hs
      · rename_i hf
        cases hs
        simp only at h
        cases hd : decode w with
        | ok i => rw [hd] at h; exact .inr (.inr (.inr ⟨rest, w, i, hd, h⟩))
        | error e =>
          rw [hd] at h
          have hff : s.faulted = false := Bool.eq_false_iff.2 hf
          have he : illegalCommand w { s with inputs := rest } = .next (raiseFault .illegal w { s with inputs := rest }) :=
            illegalCommand_next hff
          rw [he] at h
          cases h
          exact .inr (.inr (.inl ⟨rest, w, hff, rfl⟩))

/-! ## What a command does to a slot -/

theorem transmit_slot (w : CmdWord) (ts : List Transaction) (v : BitVec 32) (s : State) (k : SlotId) :
    (transmit w ts (complete v) s).slot k = s.slot k := by
  rcases transmit_cases w ts (complete v) s with ⟨_, e⟩ | ⟨b, l, r, _, _, e⟩ <;> rw [e] <;> simp

theorem transmit_init_slot (w : CmdWord) (ts : List Transaction) (v : BitVec 32) (s : State) (k : SlotId) :
    (transmit w ts (fun t => complete v t.setInitDone) s).slot k = s.slot k := by
  rcases transmit_cases w ts (fun t => complete v t.setInitDone) s with ⟨_, e⟩ | ⟨b, l, r, _, _, e⟩ <;>
    rw [e] <;> simp

/-- The slot a CLAIM configures is the one it names, unclaimed or slot 0 under SLOT0_REARM (41_motor_driver R105). -/
theorem claimTarget_some {mn : MotorNumber} {s : State} {k : SlotId} (h : claimTarget mn s = some k) :
    slotOf mn = some k ∧ ((s.slot k).claimed = false ∨ (s.cfg.slot0Rearm = true ∧ k = .slot0)) := by
  unfold claimTarget at h
  cases hs : slotOf mn with
  | none => rw [hs] at h; cases h
  | some j =>
    rw [hs] at h
    simp only at h
    split at h
    · cases h
    · rename_i hc
      cases h
      refine ⟨rfl, ?_⟩
      cases hcl : (s.slot k).claimed <;> simp_all

/-- The values a command can leave in the registers of slot `k`: as they were, or what the one command that writes
them puts there (10_state R39). -/
def SlotChange (i : Instr) (s : State) (k : SlotId) (v : Slot) : Prop :=
  v = s.slot k ∨
  (∃ mn steps, i = .claim mn steps ∧ slotOf mn = some k ∧
    ((s.slot k).claimed = false ∨ (s.cfg.slot0Rearm = true ∧ k = .slot0)) ∧ badRevolution s.cfg steps = false ∧
    v = { s.slot k with claimed := true, nrev := BitVec.ofNat 17 (steps.toNat * s.cfg.m) }) ∨
  (∃ mn dir, i = .advance mn dir ∧ s.Resolves mn k ∧ v = moveSlot s.cfg dir (s.slot k)) ∨
  (∃ mn p, i = .setTarget mn p ∧ s.Resolves mn k ∧ v = { s.slot k with target := p, tgtW := true }) ∨
  (∃ mn p, i = .setPosition mn p ∧ s.Resolves mn k ∧ p.toNat < (s.slot k).nrev.toNat ∧
    v = { s.slot k with pos := p }) ∨
  (∃ mn rpm, i = .setSpeed mn rpm ∧ s.Resolves mn k ∧ rpm ≠ 0 ∧
    v = { s.slot k with speed := speedInterval (s.slot k).nrev rpm, spdW := true })

/-- Everything an effect does to a slot. -/
theorem effect_slot {i : Instr} {s t : State} (he : Effect i s t) (k : SlotId) : SlotChange i s k (t.slot k) := by
  have upd : ∀ (j : SlotId) (v : Slot) (r : BitVec 32), SlotChange i s j v →
      t.slot k = (complete r (s.setSlot j v)).slot k → SlotChange i s k (t.slot k) := by
    intro j v r h e
    rw [e, slot_complete]
    by_cases hj : k = j
    · subst hj
      rwa [slot_setSlot]
    · exact .inl (slot_setSlot_of_ne hj _ _)
  cases i with
  | init f => exact .inl (by rw [he.2.2, transmit_init_slot])
  | setDuty ch v => exact .inl (by rw [he.2, transmit_slot])
  | setRail ch v => exact .inl (by rw [he.2, transmit_slot])
  | claim mn steps =>
    obtain ⟨_, ⟨_, rfl⟩ | ⟨j, hj, hb, rfl⟩⟩ := he
    · exact .inl (by simp)
    · obtain ⟨h1, h2⟩ := claimTarget_some hj
      exact upd j _ _ (.inr (.inl ⟨mn, steps, rfl, h1, h2, hb, rfl⟩)) rfl
  | advance mn dir =>
    obtain ⟨_, j, e, hr, _, rfl⟩ := he
    exact upd j _ 0 (.inr (.inr (.inl ⟨mn, dir, rfl, hr, rfl⟩))) (by rw [transmit_slot, slot_complete])
  | release mn =>
    obtain ⟨_, j, _, rfl⟩ := he
    exact .inl (by rw [transmit_slot])
  | setTarget mn p =>
    obtain ⟨_, j, hr, rfl⟩ := he
    exact upd j _ _ (.inr (.inr (.inr (.inl ⟨mn, p, rfl, hr, rfl⟩)))) rfl
  | setPosition mn p =>
    obtain ⟨_, j, hr, hp, rfl⟩ := he
    exact upd j _ _ (.inr (.inr (.inr (.inr (.inl ⟨mn, p, rfl, hr, hp, rfl⟩))))) rfl
  | isAtTarget mn => obtain ⟨_, j, _, _, rfl⟩ := he; exact .inl (by simp)
  | getPosition mn => obtain ⟨_, j, _, rfl⟩ := he; exact .inl (by simp)
  | setSpeed mn rpm =>
    obtain ⟨_, j, hr, h0, rfl⟩ := he
    exact upd j _ _ (.inr (.inr (.inr (.inr (.inr ⟨mn, rpm, rfl, hr, h0, rfl⟩))))) rfl
  | getSpeed mn => obtain ⟨_, j, _, _, rfl⟩ := he; exact .inl (by simp)
  | reserved0 low => cases he
  | reservedD low => cases he
  | reservedE low => cases he
  | reservedF low => cases he

end Sys2Proof.Machine
end

