-- ==== Sys2Proof/Laws/Excitation.lean ====
section
/-! SUPPORT. The excitation function and the movement of a slot, in the closed forms the statements use; and the
transactions of ADVANCE, RELEASE and the Port primitives as pairs. -/

namespace Sys2Proof.Machine

/-! ## Lengths -/

theorem m4_cases (c : Config) : (c.m = 8 ∧ c.m4 = 32) ∨ (c.m = 16 ∧ c.m4 = 64) := by
  unfold Config.m4 Config.m
  cases c.mstep <;> decide

theorem m_pos (c : Config) : 0 < c.m := by
  have := m4_cases c
  omega

theorem table_length {c : Config} (h : c.wf = true) : c.excTable.length = c.m + 1 := by
  simp only [Config.wf, Bool.and_eq_true, Config.tableLengthOk, beq_iff_eq] at h
  exact h.1.1.1.1

/-- The six channels of a slot are pairwise distinct (20_memory R55). -/
theorem channels_nodup {c : Config} (h : c.pinsOk = true) (k : SlotId) : (c.pins k).channels.Nodup := by
  simp only [Config.pinsOk, decide_eq_true_eq] at h
  cases k
  · exact (List.nodup_append.1 h).1
  · exact (List.nodup_append.1 h).2.1

theorem pinsOk_of_wf {c : Config} (h : c.wf = true) : c.pinsOk = true := by
  simp only [Config.wf, Bool.and_eq_true] at h
  exact h.2

/-! ## The movement of a slot -/

/-- Steps 1 to 3 of ADVANCE in closed form (41_motor_driver R110, R111). -/
theorem normalise_stepBy (dir : Direction) {n : Nat} (x : Nat) (hn : 0 < n) :
    normalise n (stepBy dir n x) = advanced dir n x := by
  rw [normalise, if_neg hn.ne']
  cases dir with
  | forward => simp [stepBy, advanced]
  | backward =>
    simp only [stepBy, advanced]
    by_cases hx : x = 0
    · subst hx
      simp
    · rw [if_neg hx]
      congr 1
      omega

theorem advanced_lt (dir : Direction) {n : Nat} (x : Nat) (hn : 0 < n) : advanced dir n x < n := by
  cases dir <;> exact Nat.mod_lt _ hn

theorem moveSlot_phase (c : Config) (dir : Direction) (v : Slot) :
    (moveSlot c dir v).phase.toNat = advanced dir c.m4 v.phase.toNat := by
  have h4 := m4_cases c
  have hp : 0 < c.m4 := by omega
  have hl := advanced_lt dir v.phase.toNat hp
  simp only [moveSlot, normalise_stepBy dir _ hp]
  rw [BitVec.toNat_ofNat, Nat.mod_eq_of_lt (by omega)]

theorem moveSlot_phase_lt (c : Config) (dir : Direction) (v : Slot) : (moveSlot c dir v).phase.toNat < c.m4 := by
  rw [moveSlot_phase]
  exact advanced_lt _ _ (by have := m4_cases c; omega)

theorem moveSlot_pos (c : Config) (dir : Direction) (v : Slot) (h0 : 0 < v.nrev.toNat) (hle : v.nrev.toNat ≤ 65536) :
    (moveSlot c dir v).pos.toNat = advanced dir v.nrev.toNat v.pos.toNat := by
  have hl := advanced_lt dir v.pos.toNat h0
  simp only [moveSlot, normalise_stepBy dir _ h0]
  rw [BitVec.toNat_ofNat, Nat.mod_eq_of_lt (by omega)]

/-- The interval of a configured slot (41_motor_driver R120). -/
theorem speedInterval_toNat {nrev : BitVec 17} {rpm : Imm} (h : 0 < nrev.toNat * rpm.toNat) :
    (speedInterval nrev rpm).toNat = 60000000 / (nrev.toNat * rpm.toNat) := by
  have hle : 60000000 / (nrev.toNat * rpm.toNat) ≤ 60000000 := Nat.div_le_self _ _
  simp only [speedInterval, if_neg h.ne', BitVec.toNat_ofNat]
  exact Nat.mod_eq_of_lt (by omega)

/-- A revolution length that CLAIM accepts is from 1 to 65536 (10_state R30). -/
theorem legalRevolution_bounds {c : Config} {v : Slot} (h : LegalRevolution c v) :
    0 < v.nrev.toNat ∧ v.nrev.toNat ≤ 65536 := by
  obtain ⟨steps, h0, h1, h2⟩ := h
  refine ⟨?_, h2⟩
  rw [h1]
  exact Nat.mul_pos h0 (m_pos c)

/-! ## The excitation -/

/-- The quadrants of a phase of the cycle, with the remainder in each (41_motor_driver R101). -/
theorem quadrant_cases (c : Config) {p : Nat} (hp : p < c.m4) :
    (quadrantOf c.m p = .q0 ∧ p / c.m = 0 ∧ p < c.m ∧ p % c.m = p) ∨
    (quadrantOf c.m p = .q1 ∧ p / c.m = 1 ∧ c.m ≤ p ∧ p < 2 * c.m ∧ p % c.m = p - c.m) ∨
    (quadrantOf c.m p = .q2 ∧ p / c.m = 2 ∧ 2 * c.m ≤ p ∧ p < 3 * c.m ∧ p % c.m = p - 2 * c.m) ∨
    (quadrantOf c.m p = .q3 ∧ p / c.m = 3 ∧ 3 * c.m ≤ p ∧ p < 4 * c.m ∧ p % c.m = p - 3 * c.m) := by
  unfold quadrantOf
  rcases m4_cases c with ⟨hm, h4⟩ | ⟨hm, h4⟩ <;> rw [hm] <;> rw [h4] at hp
  · have : p / 8 = 0 ∨ p / 8 = 1 ∨ p / 8 = 2 ∨ p / 8 = 3 := by omega
    rcases this with h | h | h | h <;> rw [h] <;> simp <;> omega
  · have : p / 16 = 0 ∨ p / 16 = 1 ∨ p / 16 = 2 ∨ p / 16 = 3 := by omega
    rcases this with h | h | h | h <;> rw [h] <;> simp <;> omega

/-- The index formulas and their remainder form (41_motor_driver R102). -/
theorem index_eq (c : Config) {p : Nat} (hp : p < c.m4) :
    indexA c.m (quadrantOf c.m p) p = coilIndexA c.m p ∧ indexB c.m (quadrantOf c.m p) p = coilIndexB c.m p ∧
    coilIndexA c.m p + coilIndexB c.m p = c.m := by
  unfold coilIndexA coilIndexB
  rcases quadrant_cases c hp with ⟨hq, hd, h⟩ | ⟨hq, hd, h⟩ | ⟨hq, hd, h⟩ | ⟨hq, hd, h⟩ <;>
    rw [hq, hd] <;> simp [indexA, indexB, h] <;> omega

/-- Excite answers at every phase of the cycle of a legal instance. -/
theorem excite_eq_some {c : Config} (h : c.wf = true) {p : Nat} (hp : p < c.m4) :
    ∃ dA dB, c.excTable[coilIndexA c.m p]? = some dA ∧ c.excTable[coilIndexB c.m p]? = some dB ∧
      excite c p = some ⟨quadrantOf c.m p, coilIndexA c.m p, coilIndexB c.m p, dA, dB, latchOf (quadrantOf c.m p)⟩ := by
  obtain ⟨ha, hb, hs⟩ := index_eq c hp
  have hl := table_length h
  have h1 : coilIndexA c.m p < c.excTable.length := by omega
  have h2 : coilIndexB c.m p < c.excTable.length := by omega
  refine ⟨c.excTable[coilIndexA c.m p], c.excTable[coilIndexB c.m p], List.getElem?_eq_getElem h1,
    List.getElem?_eq_getElem h2, ?_⟩
  simp [excite, ha, hb, tableRead, List.getElem?_eq_getElem h1, List.getElem?_eq_getElem h2]

/-! ## Transactions as pairs -/

theorem railTransaction_eq (ch : Channel) (high : Bool) :
    railTransaction ch high = .pwm ch (if high = true then 4096 else 0) 0 := by
  cases high <;> rfl

theorem dutyTransaction_eq (ch : Channel) (v : Imm) :
    dutyTransaction ch v =
      if v.toNat > 4095 then .pwm ch 4096 0 else .pwm ch 0 (BitVec.ofNat 13 v.toNat) := rfl

/-- A table entry never saturates (41_motor_driver R114). -/
theorem dutyTransaction_dutyOperand (ch : Channel) (d : Duty) :
    dutyTransaction ch (dutyOperand d) = .pwm ch 0 (d.setWidth 13) := by
  have hd : (dutyOperand d).toNat = d.toNat := by
    simp [dutyOperand]
    omega
  have hlt := d.isLt
  unfold dutyTransaction dutyMax
  rw [if_neg (by omega)]
  congr 1
  apply BitVec.eq_of_toNat_eq
  simp [hd]

/-- The six transactions of ADVANCE by the quadrant's latch, and by the columns of the latch table. -/
theorem advanceTransactions_eq (c : Config) (k : SlotId) {p : Nat} (hp : p < c.m4) (dA dB : Duty) (a b : Nat) :
    advanceTransactions (c.pins k) ⟨quadrantOf c.m p, a, b, dA, dB, latchOf (quadrantOf c.m p)⟩ =
      advanceWrites c k p dA dB := by
  unfold advanceTransactions advanceWrites
  simp only [dutyTransaction_dutyOperand, railTransaction_eq, railHalf]
  rcases quadrant_cases c hp with ⟨hq, hd, h⟩ | ⟨hq, hd, h⟩ | ⟨hq, hd, h⟩ | ⟨hq, hd, h⟩ <;> rw [hq, hd] <;> rfl

theorem advanceWrites_length (c : Config) (k : SlotId) (p : Nat) (dA dB : Duty) :
    (advanceWrites c k p dA dB).length = 6 := rfl

theorem releaseTransactions_eq (p : Pins) :
    releaseTransactions p =
      [.pwm p.ain1 0 0, .pwm p.ain2 0 0, .pwm p.bin1 0 0, .pwm p.bin2 0 0, .pwm p.pwma 0 0, .pwm p.pwmb 0 0] := by
  simp [releaseTransactions, railTransaction_eq, dutyTransaction]

theorem initTransactions_length (c : Config) (f : Imm) : (initTransactions c f).length = 18 := by
  unfold initTransactions
  cases c.initOrder <;> rfl

/-- ADVANCE of a resolved slot of a legal instance is the movement followed by its six transactions. -/
theorem execAdvance_eq {mn : MotorNumber} (dir : Direction) {k : SlotId} {s : State} (hs : s.Ready)
    (hr : s.Resolves mn k) (hw : s.cfg.wf = true) :
    ∃ dA dB, s.cfg.excTable[coilIndexA s.cfg.m (moveSlot s.cfg dir (s.slot k)).phase.toNat]? = some dA ∧
      s.cfg.excTable[coilIndexB s.cfg.m (moveSlot s.cfg dir (s.slot k)).phase.toNat]? = some dB ∧
      exec (.advance mn dir) s =
        .next (transmit (encode (.advance mn dir))
          (advanceWrites s.cfg k (moveSlot s.cfg dir (s.slot k)).phase.toNat dA dB)
          (complete (zext32 (moveSlot s.cfg dir (s.slot k)).pos)) (s.setSlot k (moveSlot s.cfg dir (s.slot k)))) := by
  have hp := moveSlot_phase_lt s.cfg dir (s.slot k)
  obtain ⟨dA, dB, h1, h2, he⟩ := excite_eq_some hw hp
  refine ⟨dA, dB, h1, h2, ?_⟩
  refine (runCommand_ok hs.1 (slotChecks_ok hs.2 hr)).trans ?_
  simp only [he, advanceTransactions_eq _ _ hp]

/-! ## Channels after several transactions -/

/-- Transactions on distinct channels leave each of those channels with its pair. -/
theorem acceptAll_distinct (c : Vector ChanValue 16) (ts : List (Channel × Half × Half))
    (h : (ts.map Prod.fst).Nodup) {ch : Channel} {on off : Half} (hm : (ch, on, off) ∈ ts) :
    (acceptAll c (ts.map (fun x => .pwm x.1 x.2.1 x.2.2))).get ⟨ch.toNat, ch.isLt⟩ = .pair on off := by
  obtain ⟨before, rest, rfl⟩ := List.append_of_mem hm
  rw [List.map_append, List.map_cons]
  apply acceptAll_of_last
  intro e he on' off' hh
  obtain ⟨x, hx, rfl⟩ := List.mem_map.1 he
  rw [List.map_append, List.map_cons] at h
  have hn := (List.nodup_cons.1 (List.nodup_append.1 h).2.1).1
  have hxc : x.1 = ch := congrArg (fun t => match t with | .pwm c _ _ => c | _ => 0) hh
  exact hn (List.mem_map.2 ⟨x, hx, hxc⟩)

/-- Transactions that all carry one pair leave it on every channel they name. -/
theorem acceptAll_constant (c : Vector ChanValue 16) (chs : List Channel) (on off : Half) {ch : Channel}
    (hm : ch ∈ chs) : (acceptAll c (chs.map (fun x => .pwm x on off))).get ⟨ch.toNat, ch.isLt⟩ = .pair on off := by
  have key : ∀ (l : List Channel) (v : Vector ChanValue 16),
      (ch ∈ l ∨ v.get ⟨ch.toNat, ch.isLt⟩ = .pair on off) →
      (acceptAll v (l.map (fun x => .pwm x on off))).get ⟨ch.toNat, ch.isLt⟩ = .pair on off := by
    intro l
    induction l with
    | nil => intro v hv; simpa [acceptAll] using hv
    | cons x l ih =>
      intro v hv
      apply ih
      by_cases hx : ch = x
      · subst hx
        exact .inr (setChannel_get_same _ _ _)
      · refine hv.imp (fun h => by simpa [hx] using h) (fun h => (setChannel_get_other _ _ hx).trans h)
  exact key chs c (.inl hm)

end Sys2Proof.Machine
end

