-- ==== Sys2Proof/Laws/Parameters.lean ====
section
/-! SUPPORT. What the checks of elaboration and the assembly of one line answer, said once per function. -/

namespace Sys2Proof

/-! ## Elaboration (20_memory R47, R55) -/

/-- The check of neighbours is monotonicity of the whole table. -/
theorem nonDecreasing_iff (t : List Duty) :
    nonDecreasing t = true ↔ (t.map BitVec.toNat).Pairwise (· ≤ ·) := by
  induction t with
  | nil => simp [nonDecreasing]
  | cons a l ih =>
    cases l with
    | nil => simp [nonDecreasing]
    | cons b r =>
      rw [nonDecreasing, Bool.and_eq_true, ih, decide_eq_true_eq]
      simp only [List.map_cons, List.pairwise_cons, List.mem_cons]
      constructor
      · rintro ⟨h1, h2, h3⟩
        refine ⟨?_, h2, h3⟩
        rintro x (rfl | hx)
        · exact h1
        · exact h1.trans (h2 x hx)
      · rintro ⟨h1, h2, h3⟩
        exact ⟨h1 _ (.inl rfl), h2, h3⟩

/-- The checks of a legal instance, as propositions. -/
theorem wf_iff (c : Config) : c.wf = true ↔ c.excTable.length = c.m + 1 ∧ c.excTable.head? = some 0 ∧
    c.excTable[c.m]? = some 4095 ∧ (c.excTable.map BitVec.toNat).Pairwise (· ≤ ·) ∧
    (c.pins0.channels ++ c.pins1.channels).Nodup := by
  simp [Config.wf, Config.tableLengthOk, Config.tableStartOk, Config.tableEndOk, Config.tableOrderOk, Config.pinsOk,
    nonDecreasing_iff, and_assoc]

/-- A table that elaborates is the one written, of 12-bit values. -/
theorem elaborateTable_some {l : List Nat} {t : List Duty} (h : elaborateTable l = some t) :
    t.map BitVec.toNat = l ∧ ∀ v ∈ l, v ≤ 4095 := by
  unfold elaborateTable at h
  split at h
  · cases h
    rename_i ha
    have hb : ∀ v ∈ l, v ≤ 4095 := fun v hv => by simpa [dutyMax] using List.all_eq_true.1 ha v hv
    refine ⟨?_, hb⟩
    rw [List.map_map]
    conv_rhs => rw [← List.map_id l]
    refine List.map_congr_left fun a hm => ?_
    have := hb a hm
    simp
    omega
  · cases h

/-- Pins that elaborate are the six written, each a channel number. -/
theorem elaboratePins_some {l : List Nat} {q : Pins} (h : elaboratePins l = some q) :
    q.channels.map BitVec.toNat = l ∧ l.length = 6 ∧ ∀ v ∈ l, v < 16 := by
  unfold elaboratePins at h
  split at h
  · split at h
    · cases h
      rename_i hall
      simp at hall
      refine ⟨?_, rfl, by simpa using hall⟩
      simp [Pins.channels]
      omega
    · cases h
  · cases h

/-- Six channel numbers elaborate. -/
theorem elaboratePins_isSome {l : List Nat} (h6 : l.length = 6) (h : ∀ v ∈ l, v < 16) :
    ∃ q, elaboratePins l = some q := by
  match l, h6 with
  | [_, _, _, _, _, _], _ => exact ⟨_, if_pos (by simpa using h)⟩

/-! ## The assembler -/

/-- One line assembles to the word of its command (30_encoding R80). -/
theorem Machine.assemble_line (l : Machine.AsmLine) :
    Machine.assemble [.line l] = l.command.map (fun i => [encode i]) := by
  simp only [Machine.assemble, Machine.unroll, Machine.allSome, List.nil_append, Option.bind_eq_bind, Option.bind_some]
  cases l.command <;> rfl

end Sys2Proof
end

