-- ==== Sys2Proof/Laws/PerInstr.lean ====
section
/-! SUPPORT. Statements made once per command, about the command as syntax. -/

namespace Sys2Proof.Laws.EncodingRow

/-- The encoded word of a command lies in the row of spec/opcode_table.json that has the command's mnemonic: `w AND
mask = match` (30_encoding R68, R74). -/
def Statement (i : Instr) : Prop :=
  ∃ r ∈ commandRows ++ reservedRows, r.mnemonic = i.mnemonic ∧ r.matches (encode i) = true

/-- A command built from the fields `f` lies in a row whose mask keeps of them the fields `p` of its pattern. -/
theorem of_fields {i : Instr} (f m p : Fields) (he : encode i = wordOf f) (r : Row)
    (hr : r ∈ commandRows ++ reservedRows) (hm : r.mnemonic = i.mnemonic)
    (hmask : fieldsOf r.mask = m) (hp : fieldsOf r.pattern = p)
    (h : f.opc &&& m.opc = p.opc ∧ f.mn &&& m.mn = p.mn ∧ f.b &&& m.b = p.b ∧ f.rsv &&& m.rsv = p.rsv ∧
      f.ch &&& m.ch = p.ch ∧ f.imm &&& m.imm = p.imm) : Statement i := by
  refine ⟨r, hr, hm, ?_⟩
  rw [row_matches_iff, he, fieldsOf_wordOf, hmask, hp]
  exact h

/-- A word with a given OPC lies in the row that masks only OPC. -/
theorem of_reserved {i : Instr} (opc : BitVec 4) (low : BitVec 28) (he : encode i = opc ++ low) (r : Row)
    (hr : r ∈ commandRows ++ reservedRows) (hm : r.mnemonic = i.mnemonic)
    (hmask : fieldsOf r.mask = ⟨0xF, 0, 0, 0, 0, 0⟩) (hp : fieldsOf r.pattern = ⟨opc, 0, 0, 0, 0, 0⟩) :
    Statement i := by
  refine ⟨r, hr, hm, ?_⟩
  rw [row_matches_iff, he, hmask, hp]
  refine ⟨?_, BitVec.and_zero, BitVec.and_zero, BitVec.and_zero, BitVec.and_zero, BitVec.and_zero⟩
  exact (BitVec.and_allOnes (x := (fieldsOf (opc ++ low : BitVec (4 + 28))).opc)).trans (reserved_word_opc opc low)

theorem init (f : Imm) : Statement (.init f) :=
  of_fields (motorFields 0x1 0 f)
    ⟨0xF, 0x3, 0x1, 0x1F, 0xF, 0⟩ ⟨0x1, 0, 0, 0, 0, 0⟩ rfl ⟨"INIT", 0x10000000#32, 0xFFFF0000#32⟩
    (by decide) rfl (by decide) (by decide) (by simp [motorFields])

theorem setDuty (ch : Channel) (v : Imm) : Statement (.setDuty ch v) :=
  of_fields ⟨0x2, 0, 0, 0, ch, v⟩
    ⟨0xF, 0x3, 0x1, 0x1F, 0, 0⟩ ⟨0x2, 0, 0, 0, 0, 0⟩ rfl ⟨"SET_DUTY", 0x20000000#32, 0xFFF00000#32⟩
    (by decide) rfl (by decide) (by decide) (by simp)

theorem setRail (ch : Channel) (high : Bool) : Statement (.setRail ch high) :=
  of_fields ⟨0x3, 0, BitVec.ofBool high, 0, ch, 0⟩
    ⟨0xF, 0x3, 0, 0x1F, 0, 0xFFFF⟩ ⟨0x3, 0, 0, 0, 0, 0⟩ rfl ⟨"SET_RAIL", 0x30000000#32, 0xFDF0FFFF#32⟩
    (by decide) rfl (by decide) (by decide) (by simp)

theorem claim (mn : MotorNumber) (steps : Imm) : Statement (.claim mn steps) :=
  of_fields (motorFields 0x4 mn steps)
    ⟨0xF, 0, 0x1, 0x1F, 0xF, 0⟩ ⟨0x4, 0, 0, 0, 0, 0⟩ rfl ⟨"CLAIM", 0x40000000#32, 0xF3FF0000#32⟩
    (by decide) rfl (by decide) (by decide) (by simp [motorFields])

theorem advance (mn : MotorNumber) (dir : Direction) : Statement (.advance mn dir) :=
  of_fields ⟨0x5, mn, directionBit dir, 0, 0, 0⟩
    ⟨0xF, 0, 0, 0x1F, 0xF, 0xFFFF⟩ ⟨0x5, 0, 0, 0, 0, 0⟩ rfl ⟨"ADVANCE", 0x50000000#32, 0xF1FFFFFF#32⟩
    (by decide) rfl (by decide) (by decide) (by simp)

theorem release (mn : MotorNumber) : Statement (.release mn) :=
  of_fields (motorFields 0x6 mn 0)
    ⟨0xF, 0, 0x1, 0x1F, 0xF, 0xFFFF⟩ ⟨0x6, 0, 0, 0, 0, 0⟩ rfl ⟨"RELEASE", 0x60000000#32, 0xF3FFFFFF#32⟩
    (by decide) rfl (by decide) (by decide) (by simp [motorFields])

theorem setTarget (mn : MotorNumber) (p : Imm) : Statement (.setTarget mn p) :=
  of_fields (motorFields 0x7 mn p)
    ⟨0xF, 0, 0x1, 0x1F, 0xF, 0⟩ ⟨0x7, 0, 0, 0, 0, 0⟩ rfl ⟨"SET_TARGET", 0x70000000#32, 0xF3FF0000#32⟩
    (by decide) rfl (by decide) (by decide) (by simp [motorFields])

theorem setPosition (mn : MotorNumber) (p : Imm) : Statement (.setPosition mn p) :=
  of_fields (motorFields 0x8 mn p)
    ⟨0xF, 0, 0x1, 0x1F, 0xF, 0⟩ ⟨0x8, 0, 0, 0, 0, 0⟩ rfl ⟨"SET_POSITION", 0x80000000#32, 0xF3FF0000#32⟩
    (by decide) rfl (by decide) (by decide) (by simp [motorFields])

theorem isAtTarget (mn : MotorNumber) : Statement (.isAtTarget mn) :=
  of_fields (motorFields 0x9 mn 0)
    ⟨0xF, 0, 0x1, 0x1F, 0xF, 0xFFFF⟩ ⟨0x9, 0, 0, 0, 0, 0⟩ rfl ⟨"IS_AT_TARGET", 0x90000000#32, 0xF3FFFFFF#32⟩
    (by decide) rfl (by decide) (by decide) (by simp [motorFields])

theorem getPosition (mn : MotorNumber) : Statement (.getPosition mn) :=
  of_fields (motorFields 0xA mn 0)
    ⟨0xF, 0, 0x1, 0x1F, 0xF, 0xFFFF⟩ ⟨0xA, 0, 0, 0, 0, 0⟩ rfl ⟨"GET_POSITION", 0xA0000000#32, 0xF3FFFFFF#32⟩
    (by decide) rfl (by decide) (by decide) (by simp [motorFields])

theorem setSpeed (mn : MotorNumber) (rpm : Imm) : Statement (.setSpeed mn rpm) :=
  of_fields (motorFields 0xB mn rpm)
    ⟨0xF, 0, 0x1, 0x1F, 0xF, 0⟩ ⟨0xB, 0, 0, 0, 0, 0⟩ rfl ⟨"SET_SPEED", 0xB0000000#32, 0xF3FF0000#32⟩
    (by decide) rfl (by decide) (by decide) (by simp [motorFields])

theorem getSpeed (mn : MotorNumber) : Statement (.getSpeed mn) :=
  of_fields (motorFields 0xC mn 0)
    ⟨0xF, 0, 0x1, 0x1F, 0xF, 0xFFFF⟩ ⟨0xC, 0, 0, 0, 0, 0⟩ rfl ⟨"GET_SPEED", 0xC0000000#32, 0xF3FFFFFF#32⟩
    (by decide) rfl (by decide) (by decide) (by simp [motorFields])

theorem reserved0 (low : BitVec 28) : Statement (.reserved0 low) :=
  of_reserved 0x0 low rfl ⟨"RESERVED_0", 0x00000000#32, 0xF0000000#32⟩ (by decide) rfl rfl rfl

theorem reservedD (low : BitVec 28) : Statement (.reservedD low) :=
  of_reserved 0xD low rfl ⟨"RESERVED_D", 0xD0000000#32, 0xF0000000#32⟩ (by decide) rfl rfl rfl

theorem reservedE (low : BitVec 28) : Statement (.reservedE low) :=
  of_reserved 0xE low rfl ⟨"RESERVED_E", 0xE0000000#32, 0xF0000000#32⟩ (by decide) rfl rfl rfl

theorem reservedF (low : BitVec 28) : Statement (.reservedF low) :=
  of_reserved 0xF low rfl ⟨"RESERVED_F", 0xF0000000#32, 0xF0000000#32⟩ (by decide) rfl rfl rfl

end Sys2Proof.Laws.EncodingRow
end

