-- ==== Sys2Proof/Laws/Stream.lean ====
section
/-! SUPPORT. Every effect of a command is one stream of transactions between two updates that leave the Port alone;
what those updates leave, said once. Facts about OUT, CHAN, STATUS and FCMD follow from it and `transmit_cases`. -/

namespace Sys2Proof.Machine

/-! ## Legal transactions -/

theorem legal_dutyTransaction (ch : Channel) (v : Imm) : LegalTransaction (dutyTransaction ch v) := by
  unfold dutyTransaction dutyMax
  split
  · exact ⟨.inr rfl, by simp⟩
  · refine ⟨.inl rfl, ?_⟩
    simp
    omega

theorem legal_railTransaction (ch : Channel) (high : Bool) : LegalTransaction (railTransaction ch high) := by
  cases high
  · exact legal_dutyTransaction ch 0
  · exact ⟨.inr rfl, by simp⟩

theorem mem_initTransactions {c : Config} {f : Imm} {e : Transaction} (h : e ∈ initTransactions c f) :
    e = .busOpen c.busAddr ∨ e = .freq f ∨ e ∈ resetTransactions := by
  unfold initTransactions at h
  generalize c.initOrder = order at h
  cases order
  · rcases List.mem_cons.1 h with h | h
    · exact .inl h
    · rcases List.mem_append.1 h with h | h
      · exact .inr (.inr h)
      · exact .inr (.inl (List.mem_singleton.1 h))
  · rcases List.mem_cons.1 h with h | h
    · exact .inl h
    · exact .inr (List.mem_cons.1 h)

theorem legal_initTransactions {c : Config} {f : Imm} {e : Transaction} (h : e ∈ initTransactions c f) :
    LegalTransaction e := by
  rcases mem_initTransactions h with rfl | rfl | h
  · trivial
  · trivial
  · obtain ⟨ch, _, rfl⟩ := List.mem_map.1 h
    exact legal_dutyTransaction ch 0

/-! ## The shape of an effect -/

/-- The effect of `i` from `s` to `t` is: write registers (`s` to `u`), emit `ts`, write registers (`finish`). -/
structure Shape (i : Instr) (s t u : State) (ts : List Transaction) (finish : State → State) : Prop where
  eq : t = transmit (encode i) ts finish u
  length : ts.length ≤ 18
  legal : ∀ e ∈ ts, LegalTransaction e
  before : u.out = s.out ∧ u.answers = s.answers ∧ u.chan = s.chan ∧ u.cfg = s.cfg ∧ u.status = s.status ∧
    u.fcmd = s.fcmd ∧ u.resp = s.resp ∧ u.pc = s.pc ∧ u.inputs = s.inputs
  after : ∀ x : State, (finish x).out = x.out ∧ (finish x).answers = x.answers ∧ (finish x).chan = x.chan ∧
    (finish x).cfg = x.cfg ∧ (finish x).inputs = x.inputs ∧ (finish x).fcode = x.fcode ∧
    (finish x).faulted = x.faulted ∧ (finish x).statusReserved = x.statusReserved ∧ (finish x).fcmd = x.fcmd ∧
    (finish x).pc = x.pc + 1 ∧ ∀ k, (finish x).slot k = x.slot k
  ofInit : i.isInit = true →
    ∃ f, f ≠ 0 ∧ s.initDone = false ∧ ts = initTransactions s.cfg f ∧ ∀ x, (finish x).initDone = true
  ofOther : i.isInit = false → s.initDone = true ∧ ∀ x, (finish x).initDone = x.initDone

/-- Nothing emitted is nothing but the last update. -/
theorem transmit_nil (w : CmdWord) (finish : State → State) (s : State) : transmit w [] finish s = finish s := rfl

/-- A command other than INIT that writes registers of slot `k` to `v`, emits `ts` and completes. -/
theorem Shape.of_complete {i : Instr} {s t : State} (ts : List Transaction) (r : BitVec 32) (k : SlotId) (v : Slot)
    (hi : i.isInit = false) (hd : s.initDone = true) (hl : ts.length ≤ 18) (hg : ∀ e ∈ ts, LegalTransaction e)
    (ht : t = transmit (encode i) ts (complete r) (s.setSlot k v)) : Shape i s t (s.setSlot k v) ts (complete r) where
  eq := ht
  length := hl
  legal := hg
  before := by simp
  after := by simp
  ofInit := fun h => by rw [hi] at h; cases h
  ofOther := fun _ => ⟨hd, fun x => by simp⟩

theorem setSlot_self (s : State) (k : SlotId) : s.setSlot k (s.slot k) = s := by cases k <;> rfl

/-- Every effect has the shape. -/
theorem effect_shape {i : Instr} {s t : State} (he : Effect i s t) :
    ∃ u ts finish, Shape i s t u ts finish := by
  have of : ∀ (ts : List Transaction) (r : BitVec 32) (k : SlotId) (v : Slot), i.isInit = false →
      s.initDone = true → ts.length ≤ 18 → (∀ e ∈ ts, LegalTransaction e) →
      t = transmit (encode i) ts (complete r) (s.setSlot k v) → ∃ u ts finish, Shape i s t u ts finish :=
    fun ts r k v hi hd hl hg ht => ⟨_, _, _, Shape.of_complete ts r k v hi hd hl hg ht⟩
  have same : ∀ (ts : List Transaction) (r : BitVec 32), i.isInit = false → s.initDone = true → ts.length ≤ 18 →
      (∀ e ∈ ts, LegalTransaction e) → t = transmit (encode i) ts (complete r) s →
      ∃ u ts finish, Shape i s t u ts finish :=
    fun ts r hi hd hl hg ht => of ts r .slot0 s.slot0 hi hd hl hg (by rw [ht]; rfl)
  have none_legal : ∀ e ∈ ([] : List Transaction), LegalTransaction e := fun e h => by cases h
  cases i with
  | init f =>
    refine ⟨s, initTransactions s.cfg f, fun u => complete 0 u.setInitDone, ?_⟩
    exact {
      eq := he.2.2
      length := by rw [initTransactions_length]
      legal := fun e h => legal_initTransactions h
      before := by simp
      after := by simp
      ofInit := fun _ => ⟨f, he.2.1, he.1, rfl, fun x => by simp⟩
      ofOther := fun h => by cases h }
  | setDuty ch v => exact same _ _ rfl he.1 (by simp) (by simpa using legal_dutyTransaction ch v) he.2
  | setRail ch high => exact same _ _ rfl he.1 (by simp) (by simpa using legal_railTransaction ch high) he.2
  | claim mn steps =>
    obtain ⟨hd, ⟨_, ht⟩ | ⟨k, _, _, ht⟩⟩ := he
    · exact same [] _ rfl hd (by simp) none_legal ht
    · exact of [] _ k _ rfl hd (by simp) none_legal ht
  | advance mn dir =>
    obtain ⟨hd, k, e, _, _, ht⟩ := he
    exact of _ _ k _ rfl hd (by simp [advanceTransactions])
      (by simp [advanceTransactions, legal_dutyTransaction, legal_railTransaction]) ht
  | release mn =>
    obtain ⟨hd, k, _, ht⟩ := he
    exact same _ _ rfl hd (by simp [releaseTransactions])
      (by simp [releaseTransactions, legal_dutyTransaction, legal_railTransaction]) ht
  | setTarget mn p => obtain ⟨hd, k, _, ht⟩ := he; exact of [] _ k _ rfl hd (by simp) none_legal ht
  | setPosition mn p => obtain ⟨hd, k, _, _, ht⟩ := he; exact of [] _ k _ rfl hd (by simp) none_legal ht
  | isAtTarget mn => obtain ⟨hd, k, _, _, ht⟩ := he; exact same [] _ rfl hd (by simp) none_legal ht
  | getPosition mn => obtain ⟨hd, k, _, ht⟩ := he; exact same [] _ rfl hd (by simp) none_legal ht
  | setSpeed mn rpm => obtain ⟨hd, k, _, _, ht⟩ := he; exact of [] _ k _ rfl hd (by simp) none_legal ht
  | getSpeed mn => obtain ⟨hd, k, _, _, ht⟩ := he; exact same [] _ rfl hd (by simp) none_legal ht
  | reserved0 low => cases he
  | reservedD low => cases he
  | reservedE low => cases he
  | reservedF low => cases he

/-- The configuration passes through every effect. -/
theorem effect_cfg {i : Instr} {s t : State} (he : Effect i s t) : t.cfg = s.cfg := by
  obtain ⟨u, ts, finish, h⟩ := effect_shape he
  have hb := h.before.2.2.2.1
  rcases transmit_cases (encode i) ts finish u with ⟨_, e⟩ | ⟨b, l, r, _, _, e⟩ <;> rw [h.eq, e]
  · rw [(h.after _).2.2.2.1]
    simpa using hb
  · simpa using hb

end Sys2Proof.Machine
end

