-- ==== Sys2Proof/Tests/Slice0.lean ====
section
/-! SUPPORT. Tests with expected results from the spec's own vectors (95_test_vectors), the checks of WellFormed on
ill-formed instances, and for every obligation with hypotheses a state and operands that meet them. -/

namespace Sys2Proof.Tests

open Sys2Proof.Machine

/-! ## Small states -/

/-- Whether an outcome is a next state with a property. -/
def after (o : Outcome) (p : State → Bool) : Bool :=
  match o with
  | .next t => p t
  | .fault _ => false
  | .refused _ => false

/-- Whether an outcome is the stop of a halted engine. -/
def stuck (o : Outcome) : Bool :=
  match o with
  | .next _ => false
  | .fault f => decide (f = .halted)
  | .refused _ => false

/-- A claimed slot with a revolution length, a phase and a position, nothing written. -/
def slotAt (nrev : Nat) (phase pos : Nat) : Slot :=
  { Slot.reset with
    claimed := true, nrev := BitVec.ofNat 17 nrev, phase := BitVec.ofNat 6 phase, pos := BitVec.ofNat 16 pos }

/-- The reference instance at M, initialised, with the given slot 0 and an empty stream. -/
def ready (m : MStep) (v : Slot) : State :=
  { State.resetWith (referenceConfig m) with
    status := 1, slot0 := v, chan := Vector.replicate 16 (.pair 0 0) }

/-- "after INIT": no slot claimed. -/
def afterInit : State := ready .m16 Slot.reset

/-- "slot 0 claimed with 200", M = 16. -/
def claimed0 : State := ready .m16 (slotAt 3200 0 0)

/-- The same with SLOT0_REARM = true. -/
def rearm0 : State :=
  { claimed0 with cfg := { referenceConfig .m16 with slot0Rearm := true } }

/-- Slot 1 claimed with 200. -/
def claimed1 : State := { afterInit with slot1 := slotAt 3200 0 0 }

/-- `claimed0` with both written bits set: TARGET 5, SPEED 1875, POS 5. -/
def written0 : State :=
  { claimed0 with slot0 := { slotAt 3200 0 5 with target := 5, tgtW := true, speed := 1875, spdW := true } }

/-- `s` where the Port accepts `j` transactions and faults the next. -/
def faultAfter (j : Nat) (s : State) : State :=
  { s with answers := List.replicate j .accepted ++ [.busFault] }

/-- A halted engine: `claimed0` after SET_POSITION 1, 3200. -/
def halted : State := { claimed0 with status := 0x63, fcmd := 0x84000C80 }

/-- A state of a run from reset: INIT 1600, then slot 0 claimed. -/
def running : State := { claimed0 with out := initTransactions (referenceConfig .m16) 1600 }

/-- One command word, as the host writes it. -/
def runWord (s : State) (w : Nat) : Outcome := step (s.withFetchWord 32 w)

/-! ## WellFormed: one ill-formed instance per check (20_memory R47, R55; 00_scope R5) -/

/-- The reference parameters at M = 8 as a user writes them. -/
def raw8 : RawParams where
  mstep := 8
  excTable := [0, 799, 1567, 2275, 2896, 3405, 3783, 4016, 4095]
  pins0 := [8, 10, 9, 13, 11, 12]
  pins1 := [2, 4, 3, 7, 5, 6]
  initOrder := .resetThenFreq
  slot0Rearm := false
  busAddr := 0x60

theorem test_elaborate_reference : elaborate raw8 = some (referenceConfig .m8) := by decide

theorem test_elaborate_mstep : elaborate { raw8 with mstep := 4 } = none := by decide

theorem test_elaborate_table_length :
    elaborate { raw8 with excTable := [0, 799, 1567, 2275, 2896, 3405, 3783, 4095] } = none := by decide

theorem test_elaborate_table_entry :
    elaborate { raw8 with excTable := [0, 799, 1567, 2275, 2896, 3405, 3783, 4096, 4095] } = none := by decide

theorem test_elaborate_table_start :
    elaborate { raw8 with excTable := [1, 799, 1567, 2275, 2896, 3405, 3783, 4016, 4095] } = none := by decide

theorem test_elaborate_table_end :
    elaborate { raw8 with excTable := [0, 799, 1567, 2275, 2896, 3405, 3783, 4016, 4094] } = none := by decide

theorem test_elaborate_table_order :
    elaborate { raw8 with excTable := [0, 799, 1567, 2275, 2274, 3405, 3783, 4016, 4095] } = none := by decide

theorem test_elaborate_table_flat :
    (elaborate { raw8 with excTable := [0, 799, 1567, 2275, 2275, 3405, 3783, 4016, 4095] }).isSome = true := by
  decide

theorem test_elaborate_pins_repeat : elaborate { raw8 with pins0 := [8, 8, 9, 13, 11, 12] } = none := by decide

theorem test_elaborate_pins_overlap : elaborate { raw8 with pins0 := [8, 10, 9, 13, 11, 2] } = none := by decide

theorem test_elaborate_pins_range : elaborate { raw8 with pins0 := [8, 10, 9, 13, 11, 16] } = none := by decide

theorem test_elaborate_pins_count : elaborate { raw8 with pins0 := [8, 10, 9, 13, 11] } = none := by decide

theorem test_elaborate_bus_address : elaborate { raw8 with busAddr := 128 } = none := by decide

theorem test_wf_checks :
    (referenceConfig .m8).wf = true ∧ (referenceConfig .m16).wf = true ∧
    Config.tableLengthOk { referenceConfig .m8 with mstep := .m16 } = false ∧
    Config.tableStartOk { referenceConfig .m8 with excTable := [] } = false ∧
    Config.tableEndOk { referenceConfig .m8 with excTable := [0] } = false ∧
    Config.tableOrderOk { referenceConfig .m8 with excTable := [1, 0] } = false ∧
    Config.pinsOk { referenceConfig .m8 with pins1 := referencePins0 } = false := by decide

/-! ## Decoding: words from 30_encoding R83 and 95_test_vectors section 2 -/

theorem test_decode_init : decode 0x10000640 = .ok (.init 1600) := by decide

theorem test_decode_setDuty : decode 0x200F1388 = .ok (.setDuty 15 5000) := by decide

theorem test_decode_setRail :
    decode 0x320E0000 = .ok (.setRail 14 true) ∧ decode 0x300E0000 = .ok (.setRail 14 false) := by decide

theorem test_decode_claim :
    decode 0x440000C8 = .ok (.claim 1 200) ∧ decode 0x480000C8 = .ok (.claim 2 200) ∧
    decode 0x4C0000C8 = .ok (.claim 3 200) := by decide

theorem test_decode_advance :
    decode 0x54000000 = .ok (.advance 1 .forward) ∧ decode 0x56000000 = .ok (.advance 1 .backward) ∧
    decode 0x58000000 = .ok (.advance 2 .forward) ∧ decode 0x5A000000 = .ok (.advance 2 .backward) := by decide

theorem test_decode_release : decode 0x68000000 = .ok (.release 2) := by decide

theorem test_decode_setTarget : decode 0x78000C7F = .ok (.setTarget 2 3199) := by decide

theorem test_decode_setPosition : decode 0x84000C80 = .ok (.setPosition 1 3200) := by decide

theorem test_decode_isAtTarget : decode 0x98000000 = .ok (.isAtTarget 2) := by decide

theorem test_decode_getPosition : decode 0xA4000000 = .ok (.getPosition 1) := by decide

theorem test_decode_setSpeed : decode 0xB400000A = .ok (.setSpeed 1 10) := by decide

theorem test_decode_getSpeed : decode 0xC4000000 = .ok (.getSpeed 1) := by decide

theorem test_decode_reserved :
    decode 0 = .ok (.reserved0 0) ∧ decode 0xD0000000 = .ok (.reservedD 0) ∧
    decode 0xE0000001 = .ok (.reservedE 1) ∧ decode 0xFFFFFFFF = .ok (.reservedF 0xFFFFFFF) := by decide

/-- A 1 in a must-be-zero bit of each kind: RSV bit 20 of ADVANCE, CH of INIT, MN of SET_DUTY, IMM of SET_RAIL, B of
CLAIM (30_encoding R69). -/
theorem test_decode_must_be_zero :
    decode 0x54100000 = .error (.mustBeZero 5) ∧ decode 0x10010640 = .error (.mustBeZero 1) ∧
    decode 0x240F1388 = .error (.mustBeZero 2) ∧ decode 0x320E0001 = .error (.mustBeZero 3) ∧
    decode 0x460000C8 = .error (.mustBeZero 4) := by decide

theorem test_decodeTableWord :
    decodeTableWord 32 0x54000000 = some (.advance 1 .forward) ∧ decodeTableWord 32 0x54100000 = none := by decide

/-! ## One step each (95_test_vectors section 5 to 7) -/

/-- P1 row 1: BUS_OPEN(0x60), PWM(0,0,0) to PWM(15,0,0), FREQ(1600); STATUS 0x01, RESP 0. -/
theorem test_init :
    after (runWord State.reset 0x10000640) (fun t =>
      t.out == [.busOpen 0x60] ++ allChannels.map (fun ch => .pwm ch 0 0) ++ [.freq 1600] &&
      t.status == 0x01 && t.resp == 0 && t.chanAt 15 == .pair 0 0) = true := by decide

/-- Section 6: INIT 0 from reset is RANGE (0x62); after INIT it is REINIT (0x33). -/
theorem test_init_faults :
    after (runWord State.reset 0x10000000) (fun t => t.status == 0x62 && t.fcmd == 0x10000000) = true ∧
    after (runWord afterInit 0x10000000) (fun t => t.status == 0x33 && t.out == []) = true := by decide

/-- S8, and R88's corner case 4095. -/
theorem test_setDuty :
    after (runWord afterInit 0x200F1388) (fun t => t.out == [.pwm 15 4096 0] && t.chanAt 15 == .pair 4096 0) = true ∧
    after (runWord afterInit 0x200F0FFF) (fun t => t.out == [.pwm 15 0 4095]) = true := by decide

theorem test_setRail :
    after (runWord afterInit 0x320E0000) (fun t => t.out == [.pwm 14 4096 0]) = true ∧
    after (runWord afterInit 0x300E0000) (fun t => t.out == [.pwm 14 0 0]) = true := by decide

/-- Section 5.2: 200 steps; the null handle unchecked; S = 0; a repeat; the largest length and one more. -/
theorem test_claim :
    after (runWord afterInit 0x440000C8) (fun t => t.resp == 1 && t.slot0.nrev == 3200 && t.slot0.claimed) = true ∧
    after (runWord afterInit 0x4C000000) (fun t => t.resp == 0 && t.status == 0x01) = true ∧
    after (runWord afterInit 0x44000000) (fun t => t.status == 0x63 && !t.slot0.claimed) = true ∧
    after (runWord claimed0 0x44000064) (fun t => t.resp == 1 && t.slot0.nrev == 3200) = true ∧
    after (runWord afterInit 0x44001000) (fun t => t.slot0.nrev == 65536) = true ∧
    after (runWord afterInit 0x44001001) (fun t => t.status == 0x63 && t.slot0.nrev == 0) = true := by decide

/-- Section 5.2 with SLOT0_REARM = true: motor 1 is configured again, S = 0 is RANGE, motor 2 is ignored. -/
theorem test_claim_rearm :
    after (runWord rearm0 0x44000064) (fun t => t.resp == 1 && t.slot0.nrev == 1600) = true ∧
    after (runWord rearm0 0x44000000) (fun t => t.status == 0x63 && t.slot0.nrev == 3200) = true ∧
    after (runWord { rearm0 with slot1 := slotAt 3200 0 0 } 0x48000064) (fun t =>
      t.resp == 2 && t.slot1.nrev == 3200) = true := by decide

/-- P1 row 3; section 5.1: FORWARD over the wrap; the boundary 15 to 16 takes latch 0x6. -/
theorem test_advance_forward :
    after (runWord claimed0 0x54000000) (fun t =>
      t.out == [.pwm 8 0 4075, .pwm 13 0 401, .pwm 9 4096 0, .pwm 11 4096 0, .pwm 10 0 0, .pwm 12 0 0] &&
      t.resp == 1 && t.slot0.phase == 1 && t.slot0.pos == 1) = true ∧
    after (runWord (ready .m16 (slotAt 3200 63 3199)) 0x54000000) (fun t =>
      t.slot0.phase == 0 && t.slot0.pos == 0 && t.resp == 0) = true ∧
    after (runWord (ready .m16 (slotAt 3200 15 15)) 0x54000000) (fun t =>
      t.out == [.pwm 8 0 0, .pwm 13 0 4095, .pwm 9 0 0, .pwm 11 4096 0, .pwm 10 4096 0, .pwm 12 0 0]) = true := by
  decide

/-- P2 row 5 (slot 1, BACKWARD over zero); section 5.1: POS beyond a re-configured length; P4 row 10 (M = 8). -/
theorem test_advance_others :
    after (runWord claimed1 0x5A000000) (fun t =>
      t.out == [.pwm 2 0 4075, .pwm 7 0 401, .pwm 3 4096 0, .pwm 5 0 0, .pwm 4 0 0, .pwm 6 4096 0] &&
      t.resp == 3199 && t.slot1.phase == 63) = true ∧
    after (runWord (ready .m16 (slotAt 1600 0 3000)) 0x54000000) (fun t => t.slot0.pos == 1401) = true ∧
    after (runWord (ready .m8 (slotAt 1600 7 7)) 0x54000000) (fun t =>
      t.out == [.pwm 8 0 0, .pwm 13 0 4095, .pwm 9 0 0, .pwm 11 4096 0, .pwm 10 4096 0, .pwm 12 0 0]) = true := by
  decide

/-- Section 6: a bus fault on the third transaction of ADVANCE 1, FWD. -/
theorem test_advance_bus_fault :
    after (runWord (faultAfter 2 claimed0) 0x54000000) (fun t =>
      t.out == [.pwm 8 0 4075, .pwm 13 0 401, .pwm 9 4096 0] && t.chanAt 8 == .pair 0 4075 &&
      t.chanAt 13 == .pair 0 401 && t.chanAt 9 == .unknown && t.chanAt 10 == .pair 0 0 &&
      t.slot0.phase == 1 && t.slot0.pos == 1 && t.resp == 0 && t.status == 0x93 && t.fcmd == 0x54000000) = true := by
  decide

/-- Section 5.3. -/
theorem test_release :
    after (runWord (ready .m16 (slotAt 3200 5 7)) 0x64000000) (fun t =>
      t.out == [.pwm 10 0 0, .pwm 9 0 0, .pwm 11 0 0, .pwm 12 0 0, .pwm 8 0 0, .pwm 13 0 0] && t.resp == 0 &&
      t.slot0 == slotAt 3200 5 7) = true := by decide

theorem test_setTarget :
    after (runWord claimed0 0x7400FFFF) (fun t => t.slot0.target == 65535 && t.slot0.tgtW && t.resp == 0) = true := by
  decide

theorem test_setPosition :
    after (runWord claimed0 0x84000C7F) (fun t => t.slot0.pos == 3199 && t.slot0.phase == 0 && t.out == []) = true ∧
    after (runWord claimed0 0x84000C80) (fun t => t.status == 0x63 && t.slot0.pos == 0) = true := by decide

theorem test_isAtTarget :
    after (runWord written0 0x94000000) (fun t => t.resp == 1) = true ∧
    after (runWord { written0 with slot0 := { written0.slot0 with pos := 4 } } 0x94000000) (fun t =>
      t.resp == 0 && t.status == 1) = true ∧
    after (runWord claimed0 0x94000000) (fun t => t.status == 0x83) = true := by decide

theorem test_getPosition : after (runWord written0 0xA4000000) (fun t => t.resp == 5) = true := by decide

/-- Section 5.4: exact, truncated, zero, and the largest. -/
theorem test_setSpeed :
    after (runWord claimed0 0xB400000A) (fun t => t.slot0.speed == 1875 && t.slot0.spdW) = true ∧
    after (runWord claimed0 0xB4000007) (fun t => t.slot0.speed == 2678) = true ∧
    after (runWord claimed0 0xB400FFFF) (fun t => t.slot0.speed == 0) = true ∧
    after (runWord (ready .m8 (slotAt 8 0 0)) 0xB4000001) (fun t => t.slot0.speed == 7500000) = true := by decide

theorem test_setSpeed_zero : after (runWord claimed0 0xB4000000) (fun t => t.status == 0x73) = true := by decide

theorem test_getSpeed :
    after (runWord written0 0xC4000000) (fun t => t.resp == 1875) = true ∧
    after (runWord claimed0 0xC4000000) (fun t => t.status == 0x83 && t.fcmd == 0xC4000000) = true := by decide

/-- Section 6: ILLEGAL comes before UNINIT, and a claim before INIT is UNINIT (P5). -/
theorem test_illegal :
    after (runWord State.reset 0x54100000) (fun t => t.status == 0x12 && t.fcmd == 0x54100000) = true ∧
    after (runWord State.reset 0) (fun t => t.status == 0x12 && t.fcmd == 0) = true ∧
    after (runWord State.reset 0xD0000000) (fun t => t.status == 0x12 && t.fcmd == 0xD0000000) = true ∧
    after (runWord State.reset 0x440000C8) (fun t => t.status == 0x22 && t.fcmd == 0x440000C8) = true := by decide

/-- Section 6: BAD_SLOT before RANGE; UNCLAIMED before UNWRITTEN. -/
theorem test_slot_faults :
    after (runWord afterInit 0x8C000000) (fun t => t.status == 0x43) = true ∧
    after (runWord afterInit 0x50000000) (fun t => t.status == 0x43) = true ∧
    after (runWord afterInit 0x58000000) (fun t => t.status == 0x53) = true ∧
    after (runWord afterInit 0x98000000) (fun t => t.status == 0x53) = true := by decide

/-- P3 row 8: no step while halted; a pending reset ends the halt and passes over the words before it. -/
theorem test_halted :
    stuck (runWord halted 0xA4000000) = true ∧
    after (step { halted with inputs := [.command 0xA4000000, .reset, .read .resp] }) (fun t =>
      t.status == 0 && t.fcmd == 0 && t.inputs == [.read .resp] && t.chanAt 8 == .unwritten) = true := by decide

theorem test_hostRead :
    halted.hostRead .status = 0x63 ∧ written0.hostRead .resp = 0 ∧ halted.hostRead .fcmd = 0x84000C80 := by decide

/-! ## Excitation (95_test_vectors section 4) -/

/-- R104's example, and the two entries on each side of a boundary. -/
theorem test_excite :
    excite (referenceConfig .m16) 1 = some ⟨.q0, 15, 1, 4075, 401, 0x3⟩ ∧
    excite (referenceConfig .m16) 15 = some ⟨.q0, 1, 15, 401, 4075, 0x3⟩ ∧
    excite (referenceConfig .m16) 16 = some ⟨.q1, 0, 16, 0, 4095, 0x6⟩ ∧
    excite (referenceConfig .m16) 63 = some ⟨.q3, 15, 1, 4075, 401, 0x9⟩ := by decide

/-! ## Assembler (30_encoding R80, R82, R83) -/

theorem test_assemble_text :
    assembleText "SET_DUTY 15, 5000 ; saturates\nSET_RAIL 14, HI\nCLAIM 3, 0xC8\nADVANCE 2, BWD" =
      some [0x200F1388, 0x320E0000, 0x4C0000C8, 0x5A000000] := by decide

theorem test_assemble_pseudo :
    assembleText "INIT\n.rep 2\nSTEPF 1\n.endr\nRAILLO 14" =
      some [0x10000640, 0x54000000, 0x54000000, 0x300E0000] := by decide

/-- Operands out of range are assembly errors, also where the field would hold the low bits. -/
theorem test_assemble_range :
    (AsmLine.claim 4 200).command = none ∧ (AsmLine.claim 3 200).command = some (.claim 3 200) ∧
    (AsmLine.setDuty 16 0).command = none ∧ (AsmLine.setDuty 15 65535).command = some (.setDuty 15 65535) ∧
    (AsmLine.init (some 65536)).command = none ∧ assembleText "GET_SPEED" = none := by decide

/-! ## Witnesses: every obligation's hypotheses can be met -/

theorem accepts_of_nil {s : State} (h : s.answers = []) (n : Nat) : s.PortAccepts n := by
  simp [State.PortAccepts, h]

theorem afterInit_ready : afterInit.Ready := ⟨by decide, by decide⟩

theorem claimed0_ready : claimed0.Ready := ⟨by decide, by decide⟩

theorem claimed0_resolves : claimed0.Resolves 1 .slot0 := ⟨by decide, by decide⟩

theorem claimed1_resolves : claimed1.Resolves 2 .slot1 := ⟨by decide, by decide⟩

theorem written0_resolves : written0.Ready ∧ written0.Resolves 1 .slot0 := ⟨⟨by decide, by decide⟩, by decide, by decide⟩

theorem witness_EncodeDecode : decode 0x54000000 = .ok (.advance 1 .forward) := by decide

theorem witness_RowsDisjoint :
    (⟨"RESERVED_F", 0xF0000000#32, 0xF0000000#32⟩ : Row) ∈ commandRows ++ reservedRows ∧
    Row.matches ⟨"RESERVED_F", 0xF0000000#32, 0xF0000000#32⟩ 0xFFFFFFFF = true := by decide

theorem witness_IllegalWordFaults :
    State.reset.faulted = false ∧ (0xF0000000 : CmdWord).extractLsb' 28 4 ∈ [0x0#4, 0xD#4, 0xE#4, 0xF#4] ∧
    ∃ r ∈ commandRows, r.pattern.extractLsb' 28 4 = (0x54100000 : CmdWord).extractLsb' 28 4 ∧
      r.matches 0x54100000 = false := by decide

/-- ReadHasNoEffect, ResetInput (both also halted), WaitsForCommand: a command, a read, a reset and nothing next. -/
theorem witness_inputs :
    (afterInit.withFetchWord 32 0x54000000).inputs = .command 0x54000000 :: [] ∧
    { halted with inputs := [.read .fcmd] }.inputs = .read .fcmd :: [] ∧
    { halted with inputs := [.reset] }.inputs = .reset :: [] ∧ State.reset.inputs = [] := by decide

/-- A read pending; a command that completes and one that faults, from a state of the STATUS invariant. -/
theorem witness_HostReads :
    { halted with inputs := [.read .status] }.inputs = .read .status :: [] ∧ StatusInv claimed0 ∧
    after (exec (.getPosition 1) claimed0) (fun t => !t.faulted) = true ∧
    after (exec (.setPosition 1 3200) claimed0) (fun t => t.faulted && t.hostRead .status == 0x63) = true :=
  ⟨by decide, ⟨by decide, by decide, by decide, by decide⟩, by decide, by decide⟩

theorem witness_StepRunsDecoded :
    (claimed0.withFetchWord 32 0x54000000).inputs = .command 0x54000000 :: [] ∧
    (claimed0.withFetchWord 32 0x54000000).faulted = false ∧ decode 0x54000000 = .ok (.advance 1 .forward) := by decide

theorem witness_OnlyResetEndsHalt :
    halted.faulted = true ∧
    after (step { halted with inputs := [.command 0, .reset] }) (fun t => !t.faulted) = true := by decide

theorem witness_HaltedIsStuck :
    (halted.withFetchWord 32 0).faulted = true ∧ (halted.withFetchWord 32 0).inputs = .command 0 :: [] ∧
    ∀ x ∈ ([] : List HostInput), x ≠ .reset := by decide

/-- Also ReservedRaisesIllegal, whose one hypothesis is the first clause. -/
theorem witness_InitialisationFaults :
    State.reset.faulted = false ∧ State.reset.initDone = false ∧ (Instr.claim 3 0).isInit = false ∧
    (Instr.claim 3 0).isReserved = false ∧ afterInit.faulted = false ∧ afterInit.initDone = true ∧
    (Instr.reservedD 0).isReserved = true := by decide

theorem witness_SlotFaults :
    slotOperand (.setPosition 3 0) = some 3 ∧ afterInit.slot0.claimed = false ∧ afterInit.slot1.claimed = false ∧
    slotOperand (.getSpeed 1) = some 1 ∧ slotOperand (.advance 2 .forward) = some 2 ∧
    claimed0.slot0.claimed = true ∧ claimed1.slot1.claimed = true := by decide

/-- All three cases of INIT, and both values of INIT_ORDER. -/
theorem witness_InitCompletes :
    State.reset.faulted = false ∧ State.reset.initDone = false ∧ (65535 : Imm) ≠ 0 ∧ afterInit.initDone = true ∧
    State.reset.PortAccepts 18 ∧
    after (exec (.init 65535) { State.reset with cfg := { referenceConfig .m16 with initOrder := .freqThenReset } })
      (fun t => t.out == [.busOpen 0x60, .freq 65535] ++ allChannels.map (fun ch => .pwm ch 0 0)) = true :=
  ⟨by decide, by decide, by decide, by decide, accepts_of_nil (by decide) 18, by decide⟩

theorem witness_SetDutyCompletes :
    afterInit.Ready ∧ afterInit.PortAccepts 1 ∧
    after (exec (.setDuty 15 4095) afterInit) (fun t => t.chanAt 15 == .pair 0 4095) = true ∧
    after (exec (.setDuty 0 4096) afterInit) (fun t => t.chanAt 0 == .pair 4096 0) = true :=
  ⟨afterInit_ready, accepts_of_nil (by decide) 1, by decide, by decide⟩

theorem witness_SetRailCompletes :
    afterInit.Ready ∧ afterInit.PortAccepts 1 ∧
    after (exec (.setRail 15 true) afterInit) (fun t => t.chanAt 15 == .pair 4096 0) = true ∧
    after (exec (.setRail 0 false) afterInit) (fun t => t.chanAt 0 == .pair 0 0) = true :=
  ⟨afterInit_ready, accepts_of_nil (by decide) 1, by decide, by decide⟩

theorem witness_RailPairIsSaturation : (4096 : Imm).toNat > 4095 := by decide

/-- Every branch of CLAIM: null handle, ignored repeat, refused length (0 and 4097), largest length, both slots. -/
theorem witness_ClaimCompletes :
    afterInit.Ready ∧ (0 : MotorNumber) ≠ 1 ∧ (3 : MotorNumber) ≠ 2 ∧ slotOf 1 = some .slot0 ∧ slotOf 2 = some .slot1 ∧
    (claimed0.slot .slot0).claimed = true ∧ ¬(claimed0.cfg.slot0Rearm = true ∧ SlotId.slot0 = .slot0) ∧
    (afterInit.slot .slot1).claimed = false ∧ (rearm0.cfg.slot0Rearm = true ∧ SlotId.slot0 = .slot0) ∧
    (0 : Imm).toNat = 0 ∧ (4097 : Imm).toNat * afterInit.cfg.m > 65536 ∧ 0 < (4096 : Imm).toNat ∧
    (4096 : Imm).toNat * afterInit.cfg.m ≤ 65536 :=
  ⟨afterInit_ready, by decide⟩

theorem witness_ClaimRepeated :
    claimed0.Ready ∧ slotOf 1 = some .slot0 ∧ (claimed0.slot .slot0).claimed = true ∧
    claimed0.cfg.slot0Rearm = false ∧ rearm0.Ready ∧ rearm0.cfg.slot0Rearm = true ∧
    (rearm0.slot .slot0).claimed = true ∧ 0 < (1 : Imm).toNat ∧ (1 : Imm).toNat * rearm0.cfg.m ≤ 65536 ∧
    (65535 : Imm).toNat * rearm0.cfg.m > 65536 :=
  ⟨claimed0_ready, by decide, by decide, by decide, ⟨by decide, by decide⟩, by decide⟩

theorem witness_AdvanceCompletes :
    claimed0.Ready ∧ claimed0.Resolves 1 .slot0 ∧ claimed0.cfg.wf = true ∧ 0 < (claimed0.slot .slot0).nrev.toNat ∧
    (claimed0.slot .slot0).nrev.toNat ≤ 65536 ∧ claimed0.PortAccepts 6 :=
  ⟨claimed0_ready, claimed0_resolves, by decide, by decide, by decide, accepts_of_nil (by decide) 6⟩

/-- ReleaseCompletes, MotorChannelsOverwritten: the other slot. -/
theorem witness_ReleaseCompletes :
    claimed1.Ready ∧ claimed1.Resolves 2 .slot1 ∧ claimed1.cfg.wf = true ∧ claimed1.PortAccepts 6 ∧
    (claimed1.cfg.pins .slot1).channels = [2, 4, 3, 7, 5, 6] :=
  ⟨⟨by decide, by decide⟩, claimed1_resolves, by decide, accepts_of_nil (by decide) 6, by decide⟩

theorem witness_SetPositionCompletes :
    claimed0.Ready ∧ claimed0.Resolves 1 .slot0 ∧ (3199 : Imm).toNat < (claimed0.slot .slot0).nrev.toNat ∧
    (3200 : Imm).toNat ≥ (claimed0.slot .slot0).nrev.toNat :=
  ⟨claimed0_ready, claimed0_resolves, by decide, by decide⟩

/-- IsAtTargetCompletes, GetSpeedCompletes, SetSpeedCompletes, SetTargetCompletes, GetPositionCompletes: written and
unwritten TARGET and SPEED; rpm 1 and 65535 (0 needs no more). -/
theorem witness_IsAtTargetCompletes :
    (written0.Ready ∧ written0.Resolves 1 .slot0) ∧ (written0.slot .slot0).tgtW = true ∧
    (written0.slot .slot0).spdW = true ∧ claimed0.Ready ∧ claimed0.Resolves 1 .slot0 ∧
    (claimed0.slot .slot0).tgtW = false ∧ (claimed0.slot .slot0).spdW = false ∧
    0 < (claimed0.slot .slot0).nrev.toNat ∧ (1 : Imm) ≠ 0 ∧ (65535 : Imm) ≠ 0 :=
  ⟨written0_resolves, by decide, by decide, claimed0_ready, claimed0_resolves, by decide⟩

theorem accepts_before_fault (j : Nat) (s : State) : (faultAfter j s).PortFaultsAfter j := by
  constructor
  · intro a ha
    simp [faultAfter] at ha
    exact ha.2
  · simp [faultAfter]

/-- The four commands, each at its last transaction. -/
theorem witness_PortBusFault :
    (faultAfter 0 afterInit).PortFaultsAfter 0 ∧ (faultAfter 0 afterInit).initDone = true ∧
    0 < [dutyTransaction 3 4096].length ∧ 0 < [railTransaction 3 true].length ∧
    (faultAfter 17 State.reset).PortFaultsAfter 17 ∧ (faultAfter 17 State.reset).initDone = false ∧
    17 < (initTransactions (referenceConfig .m16) 1600).length ∧
    (faultAfter 5 claimed0).PortFaultsAfter 5 ∧ (faultAfter 5 claimed0).Resolves 1 .slot0 ∧
    5 < (releaseTransactions referencePins0).length :=
  ⟨accepts_before_fault _ _, by decide, by decide, by decide, accepts_before_fault _ _, by decide, by decide,
    accepts_before_fault _ _, ⟨by decide, by decide⟩, by decide⟩

theorem witness_AdvanceBusFault :
    (faultAfter 5 claimed0).Ready ∧ (faultAfter 5 claimed0).Resolves 1 .slot0 ∧
    (faultAfter 5 claimed0).cfg.wf = true ∧ 0 < ((faultAfter 5 claimed0).slot .slot0).nrev.toNat ∧
    ((faultAfter 5 claimed0).slot .slot0).nrev.toNat ≤ 65536 ∧ (faultAfter 5 claimed0).PortFaultsAfter 5 :=
  ⟨⟨by decide, by decide⟩, ⟨by decide, by decide⟩, by decide, by decide, by decide, accepts_before_fault _ _⟩

/-- The first and last phase of every quadrant, for both M. -/
theorem witness_ExciteValue :
    ∀ m ∈ [MStep.m8, MStep.m16], (referenceConfig m).wf = true ∧
      ∀ q ∈ [0, 1, 2, 3], q * m.count < (referenceConfig m).m4 ∧ (q + 1) * m.count - 1 < (referenceConfig m).m4 := by
  decide

theorem witness_BoundaryTieBreak : 0 < 8 ∧ 0 < 16 := by decide

theorem witness_DutyPeriod : (referenceConfig .m16).wf = true ∧ 31 < 2 * (referenceConfig .m16).m := by decide

/-- Two ADVANCEs that land on phase 1: forward from 0, backward from 2 at another position. -/
theorem witness_ExcitationOfPhaseAlone :
    claimed0.cfg = (ready .m16 (slotAt 16 2 9)).cfg ∧ claimed0.Ready ∧ (ready .m16 (slotAt 16 2 9)).Ready ∧
    (ready .m16 (slotAt 16 2 9)).Resolves 1 .slot0 ∧
    after (exec (.advance 1 .forward) claimed0) (fun t => t.slot0.phase == 1) = true ∧
    after (exec (.advance 1 .backward) (ready .m16 (slotAt 16 2 9))) (fun t => t.slot0.phase == 1) = true :=
  ⟨by decide, claimed0_ready, ⟨by decide, by decide⟩, ⟨by decide, by decide⟩, by decide, by decide⟩

/-- A state about to make a transition: the last phase of the quadrant left (FORWARD) or its first (BACKWARD), the
lines of slot 0 at that quadrant's latch. -/
def crossing (r : Transition) : State :=
  let phase := r.left * 16 + (if r.dir = .forward then 15 else 0)
  { ready .m16 (slotAt 3200 phase 7) with
    chan := acceptAll afterInit.chan (advanceWrites (referenceConfig .m16) .slot0 phase 0 0) }

/-- Every row of the table. -/
theorem witness_BoundaryTransients :
    ∀ r ∈ transitions, ((crossing r).faulted = false ∧ (crossing r).initDone = true) ∧
      (slotOf 1 = some .slot0 ∧ ((crossing r).slot .slot0).claimed = true) ∧ (crossing r).cfg.wf = true ∧
      (crossing r).answers = [] ∧ ((crossing r).slot .slot0).phase.toNat / (crossing r).cfg.m = r.left ∧
      advanced r.dir (crossing r).cfg.m4 ((crossing r).slot .slot0).phase.toNat / (crossing r).cfg.m = r.entered ∧
      LinesAt ((crossing r).cfg.pins .slot0) r.left (crossing r).chan := by decide

/-- Section 4.4, over exec: phase 15 to 16 takes both lines of pair A through 0 after transactions 3 and 4. -/
theorem test_transient :
    after (exec (.advance 1 .forward) (crossing ⟨0, 1, .forward, true, false⟩)) (fun t =>
      let held := fun n => acceptAll (crossing ⟨0, 1, .forward, true, false⟩).chan (t.out.take n)
      shadowAt (held 2) 9 == .pair 4096 0 && shadowAt (held 3) 9 == .pair 0 0 && shadowAt (held 3) 10 == .pair 0 0 &&
      shadowAt (held 4) 10 == .pair 0 0 && shadowAt (held 5) 10 == .pair 4096 0) = true := by decide

/-- Each register is changed by the command the statement names. -/
theorem witness_OnlyWriters :
    after (exec (.advance 1 .forward) claimed0) (fun t => t.slot0.phase != 0 && t.slot0.pos != 0) = true ∧
    after (exec (.setPosition 1 7) claimed0) (fun t => t.slot0.pos != 0) = true ∧
    after (exec (.claim 1 1) afterInit) (fun t => t.slot0.nrev != 0 && t.slot0.claimed) = true ∧
    after (exec (.setTarget 1 9) claimed0) (fun t => t.slot0.target != 0 && t.slot0.tgtW) = true ∧
    after (exec (.setSpeed 1 1) claimed0) (fun t => t.slot0.speed != 0 && t.slot0.spdW) = true ∧
    after (exec (.init 1) State.reset) (fun t => t.initDone) = true ∧
    after (exec (.reservedD 0) afterInit) (fun t => t.fcmd != 0 && t.faulted) = true := by decide

theorem witness_SlotIsolation :
    namedSlot (.advance 1 .forward) ≠ some (otherSlot .slot0) ∧ namedSlot (.claim 2 1) ≠ some (otherSlot .slot1) ∧
    namedSlot (.claim 3 1) ≠ some (otherSlot .slot0) := by decide

/-- CompletesOrFaults, FaultsArePrecise, OutOnlyGrows, ParametersConstant: a command that completes, one that faults
precisely, and a bus fault. -/
theorem witness_CompletesOrFaults :
    after (exec (.getPosition 1) claimed0) (fun t => !t.faulted && t.pc == 1) = true ∧
    after (exec (.setPosition 1 3200) claimed0) (fun t => t.faulted && t.fcode != FaultCode.bus.bits) = true ∧
    after (exec (.release 1) (faultAfter 0 claimed0)) (fun t => t.faulted && t.out.length == 1) = true := by decide

theorem witness_OnlyHaltedStops : claimed0.cfg.wf = true ∧ stuck (runWord halted 0) = true := by decide

/-- StatusInvKept, SlotsInvKept, ShadowInvKept, StreamInvKept: `running` meets every invariant. -/
theorem witness_invariants : Inv running := by
  refine ⟨by decide, ⟨by decide, by decide, by decide, by decide⟩, ⟨by decide, by decide, ?_, by decide⟩,
    ⟨by decide, by decide, fun h => absurd h (by decide), by decide⟩, ?_,
    ⟨by decide, fun h => absurd h (by decide)⟩, ?_⟩
  · exact fun _ => ⟨200, by decide, by decide, by decide⟩
  · intro k _ hc
    cases k
    · decide
    · exact absurd hc (by decide)
  · exact ⟨fun e he => legal_initTransactions he, by decide, fun _ => ⟨1600, [], by decide, by decide⟩⟩

/-- And an ADVANCE there is a next state (also for ParametersConstant). -/
theorem witness_invariants_step : after (runWord running 0x54000000) (fun t => t.slot0.pos == 1) = true := by decide

theorem witness_ResetMeetsInv : (referenceConfig .m8).wf = true := by decide

/-- A legal slot for the laws of ADVANCE: the shortest revolution at M = 8, NREV = 8. -/
theorem witness_RoundTrip :
    Direction.forward ≠ .backward ∧ (ready .m8 (slotAt 8 31 7)).Ready ∧
    (ready .m8 (slotAt 8 31 7)).Resolves 1 .slot0 ∧ (referenceConfig .m8).wf = true ∧
    SlotInv (referenceConfig .m8) (slotAt 8 31 7) ∧ (slotAt 8 31 7).pos.toNat < (slotAt 8 31 7).nrev.toNat ∧
    (ready .m8 (slotAt 8 31 7)).PortAccepts (12 * 8) :=
  ⟨by decide, ⟨by decide, by decide⟩, ⟨by decide, by decide⟩, by decide,
    ⟨by decide, by decide, fun _ => ⟨1, by decide, by decide, by decide⟩, by decide⟩, by decide,
    accepts_of_nil (by decide) _⟩

/-- POS = 0; one length that M4 divides and one that it does not. -/
theorem witness_FullRevolution :
    (ready .m8 (slotAt 8 31 0)).Ready ∧ (ready .m8 (slotAt 8 31 0)).Resolves 1 .slot0 ∧
    SlotInv (referenceConfig .m8) (slotAt 8 31 0) ∧ (slotAt 8 31 0).pos = 0 ∧
    SlotInv (referenceConfig .m8) (slotAt 32 31 0) ∧
    (referenceConfig .m8).m4 ∣ (slotAt 32 31 0).nrev.toNat ∧ ¬ (referenceConfig .m8).m4 ∣ (slotAt 8 31 0).nrev.toNat :=
  ⟨⟨by decide, by decide⟩, ⟨by decide, by decide⟩,
    ⟨by decide, by decide, fun _ => ⟨1, by decide, by decide, by decide⟩, by decide⟩, by decide,
    ⟨by decide, by decide, fun _ => ⟨4, by decide, by decide, by decide⟩, by decide⟩, by decide, by decide⟩

theorem witness_AlignmentKept :
    SlotInv claimed0.cfg (claimed0.slot .slot0) ∧ claimed0.cfg.wf = true ∧ claimed0.Resolves 1 .slot0 ∧
    (claimed0.slot .slot0).pos.toNat < (claimed0.slot .slot0).nrev.toNat ∧
    claimed0.cfg.m4 ∣ (claimed0.slot .slot0).nrev.toNat ∧
    (claimed0.slot .slot0).phase.toNat = (claimed0.slot .slot0).pos.toNat % claimed0.cfg.m4 ∧
    after (exec (.advance 1 .backward) claimed0) (fun t => !t.faulted) = true :=
  ⟨⟨by decide, by decide, fun _ => ⟨200, by decide, by decide, by decide⟩, by decide⟩, by decide, claimed0_resolves,
    by decide, by decide, by decide, by decide⟩

/-- Legal parameters, and one breach of each constraint. -/
theorem witness_ElaborationRejects :
    raw8.Legal ∧ ∀ p ∈ [{ raw8 with mstep := 4 }, { raw8 with busAddr := 128 }, { raw8 with excTable := [0, 4095] },
      { raw8 with excTable := [0, 799, 1567, 2275, 2896, 3405, 3783, 4096, 4095] },
      { raw8 with excTable := [1, 799, 1567, 2275, 2896, 3405, 3783, 4016, 4095] },
      { raw8 with excTable := [0, 799, 1567, 2275, 2896, 3405, 3783, 4016, 4094] },
      { raw8 with excTable := [0, 799, 1567, 2275, 2274, 3405, 3783, 4016, 4095] },
      { raw8 with pins0 := [8, 10, 9, 13, 11] }, { raw8 with pins1 := [2, 4, 3, 7, 5, 6, 1] },
      { raw8 with pins0 := [8, 10, 9, 13, 11, 16] }, { raw8 with pins0 := [8, 10, 9, 13, 11, 2] }],
      ¬p.Legal := by decide

theorem witness_AssemblerPseudo :
    assemble ([AsmLine.stepF 1].map .line) = some [0x54000000] ∧
    assemble ([.rep 0] ++ [AsmLine.stepF 1].map .line ++ [.endRep]) = some [] := by decide

end Sys2Proof.Tests
end

section
/-! Host reads (10_state R26): what `step` does with a settled interaction, and that a read settles with its request
taken and nothing else changed. -/

namespace Sys2Proof.Machine

/-- An interaction settled without a command is the whole step. -/
theorem step_of_serve_settled {s t : State} (h : serve s = .settled t) : step s = .next t := by
  simp only [step, h]

/-- Serving a read does not ask whether the engine is halted. -/
theorem serve_of_read {s : State} {r : HostReg} {rest : List HostInput} (h : s.inputs = .read r :: rest) :
    serve s = .settled { s with inputs := rest } := by
  simp only [serve, h]

/-- Settles O8: a read is settled by taking its request, and a settled interaction is the whole step. -/
theorem readHasNoEffect : Obligations.ReadHasNoEffect := by
  unfold Obligations.ReadHasNoEffect
  intro s r rest h
  exact step_of_serve_settled (serve_of_read h)

end Sys2Proof.Machine
end

section
/-! The parameters of the instance (20_memory R50): no command and no step of the engine writes the configuration. -/

namespace Sys2Proof.Machine

/-- A command keeps the configuration, whether it faults or takes effect. -/
theorem exec_cfg {i : Instr} {s t : State} (h : exec i s = .next t) : t.cfg = s.cfg := by
  obtain ⟨_, ⟨code, _, rfl⟩ | he⟩ := exec_next h
  · exact raiseFault_cfg code (encode i) s
  · exact effect_cfg he

/-- Settles O45: of the four things a step can do, taking an input leaves the configuration in place, a reset and a
fault write other registers only, and a command keeps it by `exec_cfg`. -/
theorem parametersConstant : Obligations.ParametersConstant := by
  unfold Obligations.ParametersConstant
  intro s t h
  obtain ⟨rest, rfl⟩ | ⟨rest, rfl⟩ | ⟨rest, w, _, rfl⟩ | ⟨rest, w, i, _, he⟩ := step_next h
  · rfl
  · exact applyReset_cfg { s with inputs := rest }
  · exact raiseFault_cfg .illegal w { s with inputs := rest }
  · exact exec_cfg (s := { s with inputs := rest }) he

end Sys2Proof.Machine
end

section
/-! The decoder and the rows of the opcode map (30_encoding R68, R75, R76): a decoded word is its command's own word
and lies in its command's row, and a word of a command's row decodes to that command. -/

namespace Sys2Proof

/-! ## A decoded word is its command's own word -/

theorem directionBit_directionOf (b : BitVec 1) : directionBit (directionOf b) = b := by
  obtain rfl | rfl := BitVec.eq_zero_or_eq_one b <;> rfl

theorem ofBool_beq_one (b : BitVec 1) : BitVec.ofBool (b == 1#1) = b := by
  obtain rfl | rfl := BitVec.eq_zero_or_eq_one b <;> rfl

/-- A word is put together from its fields. -/
theorem wordOf_eq_of_fieldsOf_eq {w : CmdWord} {f : Fields} (h : fieldsOf w = f) : wordOf f = w := by
  rw [← h, wordOf_fieldsOf]

/-- A word is its OPC over its low bits, with the OPC read as a number. -/
theorem append_lowBits_of_opc {w : CmdWord} {n : Nat} (h : (fieldsOf w).opc.toNat = n) :
    BitVec.ofNat 4 n ++ lowBits w = w := by
  rw [← (BitVec.toNat_eq_nat.1 h).2, opc_append_lowBits]

/-- A decoded word is the encoding of what it decodes to (30_encoding R75): a reserved code keeps all the low bits, and
a command keeps its operand fields and has zero in the others (R69). -/
theorem encode_of_decode {w : CmdWord} {i : Instr} (h : decode w = .ok i) : encode i = w := by
  unfold decode at h
  dsimp only at h
  split at h
  case h_1 hopc => cases h; exact append_lowBits_of_opc hopc
  case h_14 hopc => cases h; exact append_lowBits_of_opc hopc
  case h_15 hopc => cases h; exact append_lowBits_of_opc hopc
  case h_16 =>
    cases h
    have hlt := (fieldsOf w).opc.isLt
    have hopc : (fieldsOf w).opc.toNat = 15 := by
      simp only [imp_false] at *
      omega
    exact append_lowBits_of_opc hopc
  all_goals
    rename_i hopc
    obtain ⟨hzero, rfl⟩ := ifZero_ok h
    obtain ⟨-, hopc⟩ := BitVec.toNat_eq_nat.1 hopc
    refine wordOf_eq_of_fieldsOf_eq ?_
    clear h
    generalize fieldsOf w = f at hzero hopc ⊢
    cases f
    simp_all [motorFields, directionBit_directionOf, ofBool_beq_one]

/-! ## The row of a decoded word -/

theorem encodingRow_statement (i : Instr) : Laws.EncodingRow.Statement i := by
  cases i with
  | init f => exact Laws.EncodingRow.init f
  | setDuty ch v => exact Laws.EncodingRow.setDuty ch v
  | setRail ch high => exact Laws.EncodingRow.setRail ch high
  | claim mn steps => exact Laws.EncodingRow.claim mn steps
  | advance mn dir => exact Laws.EncodingRow.advance mn dir
  | release mn => exact Laws.EncodingRow.release mn
  | setTarget mn p => exact Laws.EncodingRow.setTarget mn p
  | setPosition mn p => exact Laws.EncodingRow.setPosition mn p
  | isAtTarget mn => exact Laws.EncodingRow.isAtTarget mn
  | getPosition mn => exact Laws.EncodingRow.getPosition mn
  | setSpeed mn rpm => exact Laws.EncodingRow.setSpeed mn rpm
  | getSpeed mn => exact Laws.EncodingRow.getSpeed mn
  | reserved0 low => exact Laws.EncodingRow.reserved0 low
  | reservedD low => exact Laws.EncodingRow.reservedD low
  | reservedE low => exact Laws.EncodingRow.reservedE low
  | reservedF low => exact Laws.EncodingRow.reservedF low

theorem isReserved_iff_mnemonic (i : Instr) : i.isReserved = true ↔ i.mnemonic ∈ reservedRows.map Row.mnemonic := by
  cases i <;> simp [Instr.isReserved, Instr.mnemonic, reservedRows]

/-- A decoded word that is no reserved code lies in a row of the twelve commands. -/
theorem commandRow_of_decode {w : CmdWord} {i : Instr} (h : decode w = .ok i) (hi : i.isReserved = false) :
    ∃ r ∈ commandRows, r.matches w = true := by
  obtain ⟨r, hr, hm, hw⟩ := encodingRow_statement i
  rw [encode_of_decode h] at hw
  rcases List.mem_append.1 hr with hr | hr
  · exact ⟨r, hr, hw⟩
  · have hres : i.isReserved = true := (isReserved_iff_mnemonic i).2 (hm ▸ List.mem_map_of_mem hr)
    simp [hi] at hres

/-- A word of a command's row decodes to that command: the row's mask and match are the OPC that selects the decoder's
arm and the zeros the arm asks for (30_encoding R68, R69). -/
theorem decode_of_matches {w : CmdWord} {r : Row} (hr : r ∈ commandRows) (hw : r.matches w = true) :
    ∃ i, decode w = .ok i ∧ i.mnemonic = r.mnemonic ∧ i.isReserved = false := by
  rw [row_matches_iff] at hw
  unfold decode
  generalize fieldsOf w = f at hw ⊢
  have hopc : f.opc &&& 0xF#4 = f.opc := BitVec.and_allOnes
  have hmn : f.mn &&& 0x3#2 = f.mn := BitVec.and_allOnes
  have hb : f.b &&& 0x1#1 = f.b := BitVec.and_allOnes
  have hrsv : f.rsv &&& 0x1F#5 = f.rsv := BitVec.and_allOnes
  have hch : f.ch &&& 0xF#4 = f.ch := BitVec.and_allOnes
  have himm : f.imm &&& 0xFFFF#16 = f.imm := BitVec.and_allOnes
  simp only [commandRows, List.mem_cons, List.not_mem_nil, or_false] at hr
  rcases hr with rfl | rfl | rfl | rfl | rfl | rfl | rfl | rfl | rfl | rfl | rfl | rfl
  all_goals
    simp only [fieldsOf, BitVec.reduceExtractLsb', BitVec.and_zero, hopc, hmn, hb, hrsv, hch, himm, true_and,
      and_true] at hw
    simp [hw, ifZero, Instr.mnemonic, Instr.isReserved]

/-- Settles O3: the first matching row is the row of the decoded command and the word is that command's own; where no
row matches, the decoder answers a reserved code or a rejection. -/
theorem decodeAgreesWithRows : Obligations.DecodeAgreesWithRows := by
  unfold Obligations.DecodeAgreesWithRows
  intro w
  unfold decodeByRows
  cases hfind : commandRows.find? (fun r => r.matches w) with
  | some r =>
    have hw : r.matches w = true := List.find?_some (p := fun r : Row => r.matches w) hfind
    obtain ⟨i, hd, hm, hi⟩ := decode_of_matches (List.mem_of_find?_eq_some hfind) hw
    simp [hd, hm, hi, encode_of_decode hd, fieldsOf]
  | none =>
    cases hd : decode w with
    | error e => rfl
    | ok i =>
      cases hi : i.isReserved
      · obtain ⟨r, hr, hw⟩ := commandRow_of_decode hd hi
        exact absurd hw (List.find?_eq_none.1 hfind r hr)
      · simp [hi]

end Sys2Proof
end

section
/-! Illegal words (30_encoding R74): a word that is illegal by its OPC or its must-be-zero bits decodes to nothing but
a reserved code, and the step that takes it raises ILLEGAL. -/

namespace Sys2Proof.Machine

/-! ## The OPC of a row -/

theorem rowMask_opc : ∀ r ∈ commandRows, (fieldsOf r.mask).opc = BitVec.allOnes 4 := by decide

theorem rowOpc_not_reserved : ∀ r ∈ commandRows, r.pattern.extractLsb' 28 4 ∉ [0x0#4, 0xD#4, 0xE#4, 0xF#4] := by
  decide

theorem rowOpc_injective : ∀ r ∈ commandRows, ∀ r' ∈ commandRows,
    r.pattern.extractLsb' 28 4 = r'.pattern.extractLsb' 28 4 → r = r' := by decide

/-- A word of a command's row has the row's OPC. -/
theorem rowOpc_of_matches {w : CmdWord} {r : Row} (hr : r ∈ commandRows) (hw : r.matches w = true) :
    r.pattern.extractLsb' 28 4 = w.extractLsb' 28 4 := by
  obtain ⟨hopc, -⟩ := (row_matches_iff r w).1 hw
  rw [rowMask_opc r hr, BitVec.and_allOnes] at hopc
  exact hopc.symm

/-! ## What an illegal word decodes to -/

/-- The two kinds of illegal word of 30_encoding R74: a reserved OPC, or a command's OPC without the command's row. -/
def IllegalWord (w : CmdWord) : Prop :=
  w.extractLsb' 28 4 ∈ [0x0#4, 0xD#4, 0xE#4, 0xF#4] ∨
    ∃ r ∈ commandRows, r.pattern.extractLsb' 28 4 = w.extractLsb' 28 4 ∧ r.matches w = false

/-- Any other command's row would give the word its OPC, which is not reserved and is no second row's. -/
theorem isReserved_of_illegalWord {w : CmdWord} {i : Instr} (h : IllegalWord w) (hd : decode w = .ok i) :
    i.isReserved = true := by
  by_contra hi
  obtain ⟨r, hr, hw⟩ := commandRow_of_decode hd (Bool.eq_false_iff.2 hi)
  have hopc := rowOpc_of_matches hr hw
  obtain hres | ⟨r', hr', hopc', hw'⟩ := h
  · exact rowOpc_not_reserved r hr (hopc ▸ hres)
  · obtain rfl := rowOpc_injective r hr r' hr' (hopc.trans hopc'.symm)
    simp [hw] at hw'

/-! ## The step that takes a command word -/

theorem exec_of_isReserved {i : Instr} (h : i.isReserved = true) (s : State) :
    exec i s = illegalCommand (encode i) s := by
  match i, h with
  | .reserved0 _, _ | .reservedD _, _ | .reservedE _, _ | .reservedF _, _ => rfl

theorem serve_of_command {s : State} {w : CmdWord} {rest : List HostInput} (hin : s.inputs = .command w :: rest)
    (hf : s.faulted = false) : serve s = .execute w { s with inputs := rest } := by
  simp [serve, hin, hf]

theorem step_of_decode_ok {s : State} {w : CmdWord} {i : Instr} {rest : List HostInput}
    (hin : s.inputs = .command w :: rest) (hf : s.faulted = false) (hd : decode w = .ok i) :
    step s = exec i { s with inputs := rest } := by
  simp only [step, serve_of_command hin hf, hd]

theorem step_of_decode_error {s : State} {w : CmdWord} {e : Reject} {rest : List HostInput}
    (hin : s.inputs = .command w :: rest) (hf : s.faulted = false) (hd : decode w = .error e) :
    step s = illegalCommand w { s with inputs := rest } := by
  simp only [step, serve_of_command hin hf, hd]

/-- An illegal word is executed as one whether the decoder rejects it or gives a reserved code for it. -/
theorem step_of_illegalWord {s : State} {w : CmdWord} {rest : List HostInput} (hin : s.inputs = .command w :: rest)
    (hf : s.faulted = false) (h : IllegalWord w) : step s = illegalCommand w { s with inputs := rest } := by
  cases hd : decode w with
  | error e => exact step_of_decode_error hin hf hd
  | ok i =>
    have hres := isReserved_of_illegalWord h hd
    rw [step_of_decode_ok hin hf hd, exec_of_isReserved hres, encode_of_decode hd]

/-- Settles O5: the step of an illegal word is the raised fault, and raising a fault keeps the slots and the Port. -/
theorem illegalWordFaults : Obligations.IllegalWordFaults := by
  unfold Obligations.IllegalWordFaults
  intro s w rest hin hf h
  exact ⟨_, (step_of_illegalWord hin hf h).trans (illegalCommand_next hf), raisedFault_raiseFault .illegal w _,
    ⟨rfl, rfl⟩, ⟨rfl, rfl, rfl⟩⟩

end Sys2Proof.Machine
end

section
/-! The assembler's `.rep` (30_encoding R82): the lines of a block are collected in order, and assembling copies of a
block gives copies of its words. -/

namespace Sys2Proof.Machine

/-- Lines inside an open block are added to it in order. -/
theorem unroll_lines_in_block (block : List AsmLine) (rest : List AsmItem) (n : Nat) (before : List AsmLine)
    (outer : List (Nat × List AsmLine)) (done : List AsmLine) :
    unroll (block.map .line ++ rest) ((n, before) :: outer) done =
      unroll rest ((n, before ++ block) :: outer) done := by
  induction block generalizing before with
  | nil => rw [List.append_nil]; rfl
  | cons l block ih => simpa [unroll] using ih (before ++ [l])

/-- Lines outside every block stand as they are. -/
theorem unroll_lines (block done : List AsmLine) : unroll (block.map .line) [] done = some (done ++ block) := by
  induction block generalizing done with
  | nil => rw [List.append_nil]; rfl
  | cons l block ih => simpa [unroll] using ih (done ++ [l])

/-- One block unrolls to its copies. -/
theorem unroll_rep (n : Nat) (block : List AsmLine) :
    unroll ([.rep n] ++ block.map .line ++ [.endRep]) [] [] = some (copies n block) :=
  unroll_lines_in_block block [.endRep] n [] [] []

theorem allSome_append {α β : Type} {f : α → Option β} {xs xs' : List α} {ys ys' : List β}
    (h : allSome f xs = some ys) (h' : allSome f xs' = some ys') : allSome f (xs ++ xs') = some (ys ++ ys') := by
  induction xs generalizing ys with
  | nil => cases h; exact h'
  | cons x xs ih =>
    simp only [allSome, Option.bind_eq_bind, Option.bind_eq_some_iff, Option.pure_def, Option.some.injEq] at h
    obtain ⟨y, hy, zs, hzs, rfl⟩ := h
    simp [allSome, hy, ih hzs]

theorem allSome_copies {α β : Type} {f : α → Option β} {xs : List α} {ys : List β} (h : allSome f xs = some ys)
    (n : Nat) : allSome f (copies n xs) = some (copies n ys) := by
  induction n with
  | zero => rfl
  | succ n ih => exact allSome_append h ih

theorem map_copies {α β : Type} (f : α → β) (n : Nat) (xs : List α) : (copies n xs).map f = copies n (xs.map f) := by
  induction n with
  | zero => rfl
  | succ n ih => simp [copies, ih]

/-- What a program assembles to, through its unrolled lines and their commands. -/
theorem assemble_eq_some_iff (items : List AsmItem) (words : List CmdWord) :
    assemble items = some words ↔ ∃ lines, unroll items [] [] = some lines ∧
      ∃ commands, allSome AsmLine.command lines = some commands ∧ commands.map encode = words := by
  simp [assemble, Option.bind_eq_some_iff]

/-- Settles O58: a pseudo-instruction has its expansion's command by definition, and an assembled block's commands are
copied with its lines. -/
theorem assemblerPseudo : Obligations.AssemblerPseudo := by
  unfold Obligations.AssemblerPseudo
  refine ⟨fun n => ⟨rfl, rfl, rfl, rfl, rfl⟩, fun n block words h => ?_⟩
  obtain ⟨lines, hlines, commands, hcommands, rfl⟩ := (assemble_eq_some_iff _ _).1 h
  obtain rfl : block = lines := by simpa [unroll_lines] using hlines
  exact (assemble_eq_some_iff _ _).2
    ⟨copies n block, unroll_rep n block, copies n commands, allSome_copies hcommands n, map_copies encode n commands⟩

end Sys2Proof.Machine
end

section
/-! SET_DUTY and SET_RAIL (40_port R88, R89, R92, R93): each is one PWM transaction on the channel it names. -/

namespace Sys2Proof.Machine

/-! ## A command that is one PWM transaction -/

theorem chanAt_complete_emitted (r : BitVec 32) (ts : List Transaction) (s : State) (ch : Channel) :
    (complete r (emitted ts s)).chanAt ch = shadowAt (acceptAll s.chan ts) ch := rfl

/-- An accepted PWM transaction leaves its pair on its channel, and every other channel as it was. -/
theorem shadowAt_acceptAll_pwm (c : Vector ChanValue 16) (ch : Channel) (on off : Half) :
    shadowAt (acceptAll c [.pwm ch on off]) ch = .pair on off ∧
      ∀ other, other ≠ ch → shadowAt (acceptAll c [.pwm ch on off]) other = shadowAt c other :=
  ⟨setChannel_get_same c ch _, fun _ h => setChannel_get_other c _ h⟩

/-- The Port takes the one transaction of such a command, and the command completes with RESP = 0 and its frame. -/
theorem onePwm_completes {i : Instr} {s : State} {ch : Channel} {on off : Half} (hp : s.PortAccepts 1)
    (h : exec i s = .next (transmit (encode i) [.pwm ch on off] (complete 0) s)) :
    ∃ t, exec i s = .next t ∧ CompletesWith 0 s t ∧ Emitted [.pwm ch on off] s t ∧ SameSlots s t ∧
      SameFaultRegs s t ∧ t.chanAt ch = .pair on off ∧ ∀ other, other ≠ ch → t.chanAt other = s.chanAt other := by
  have hex : exec i s = .next (complete 0 (emitted [.pwm ch on off] s)) :=
    h.trans (congrArg _ (transmit_accepted _ [.pwm ch on off] (complete 0) s hp))
  obtain ⟨hsame, hother⟩ := shadowAt_acceptAll_pwm s.chan ch on off
  exact ⟨_, hex, ⟨rfl, rfl, rfl, rfl⟩, ⟨rfl, rfl⟩, ⟨rfl, rfl⟩, ⟨rfl, rfl⟩,
    (chanAt_complete_emitted 0 _ s ch).trans hsame,
    fun other hne => (chanAt_complete_emitted 0 _ s other).trans (hother other hne)⟩

/-! ## The two commands -/

theorem exec_setDuty_of_ready (ch : Channel) (v : Imm) {s : State} (hs : s.Ready) :
    exec (.setDuty ch v) s = .next (transmit (encode (.setDuty ch v)) [dutyTransaction ch v] (complete 0) s) :=
  runCommand_ok hs.1 (initialised_ok hs.2)

theorem exec_setRail_of_ready (ch : Channel) (high : Bool) {s : State} (hs : s.Ready) :
    exec (.setRail ch high) s =
      .next (transmit (encode (.setRail ch high)) [railTransaction ch high] (complete 0) s) :=
  runCommand_ok hs.1 (initialised_ok hs.2)

/-- The pair of a duty, saturated above 4095 (40_port R88). -/
def dutyPair (v : Imm) : Half × Half := if v.toNat > 4095 then (4096, 0) else (0, BitVec.ofNat 13 v.toNat)

theorem dutyTransaction_eq_dutyPair (ch : Channel) (v : Imm) :
    dutyTransaction ch v = .pwm ch (dutyPair v).1 (dutyPair v).2 := by
  rw [dutyTransaction_eq, dutyPair]
  split <;> rfl

/-- Settles O18: the command's one transaction carries the saturated pair of its value. -/
theorem setDutyCompletes : Obligations.SetDutyCompletes := by
  unfold Obligations.SetDutyCompletes
  intro ch v s hs hp
  have hex := exec_setDuty_of_ready ch v hs
  rw [dutyTransaction_eq_dutyPair] at hex
  exact ⟨rfl, onePwm_completes hp hex⟩

/-- Settles O19: the command's one transaction carries the pair of its level, and `B` is the level's bit. -/
theorem setRailCompletes : Obligations.SetRailCompletes := by
  unfold Obligations.SetRailCompletes
  intro ch high s hs hp
  have hex := exec_setRail_of_ready ch high hs
  rw [railTransaction_eq] at hex
  refine ⟨?_, onePwm_completes hp hex⟩
  cases high <;> rfl

end Sys2Proof.Machine
end

section
/-! INIT (40_port R87): its checks, its eighteen transactions by INIT_ORDER, and the shadow they leave. -/

namespace Sys2Proof.Machine

/-! ## The checks -/

theorem initChecks_ok {f : Imm} {s : State} (hi : s.initDone = false) (hf : f ≠ 0) : initChecks f s = .ok () := by
  rw [initChecks, if_neg (Bool.eq_false_iff.1 hi), if_neg hf]

theorem initChecks_reinit (f : Imm) {s : State} (hi : s.initDone = true) : initChecks f s = .error .reinit := by
  simp [initChecks, hi]

theorem initChecks_range {s : State} (hi : s.initDone = false) : initChecks 0 s = .error .range := by
  simp [initChecks, hi]

/-! ## The transactions -/

theorem resetTransactions_eq_map_allChannels :
    resetTransactions = allChannels.map (fun ch => Transaction.pwm ch 0 0) := rfl

theorem allChannels_eq_map_range : allChannels = (List.range 16).map (BitVec.ofNat 4) := by decide

theorem resetTransactions_eq_map_range :
    resetTransactions = (List.range 16).map (fun n => Transaction.pwm (BitVec.ofNat 4 n) 0 0) := by
  rw [resetTransactions_eq_map_allChannels, allChannels_eq_map_range, List.map_map]
  rfl

theorem initTransactions_resetThenFreq {c : Config} (h : c.initOrder = .resetThenFreq) (f : Imm) :
    initTransactions c f = [.busOpen c.busAddr] ++ resetTransactions ++ [.freq f] := by
  simp [initTransactions, h]

theorem initTransactions_freqThenReset {c : Config} (h : c.initOrder = .freqThenReset) (f : Imm) :
    initTransactions c f = [.busOpen c.busAddr, .freq f] ++ resetTransactions := by
  simp [initTransactions, h]

/-! ## The shadow -/

theorem mem_allChannels : ∀ ch : Channel, ch ∈ allChannels := by decide

theorem acceptAll_busOpen_cons (v : Vector ChanValue 16) (addr : BitVec 7) (ts : List Transaction) :
    acceptAll v (.busOpen addr :: ts) = acceptAll v ts := rfl

theorem acceptAll_freq_cons (v : Vector ChanValue 16) (hz : Imm) (ts : List Transaction) :
    acceptAll v (.freq hz :: ts) = acceptAll v ts := rfl

theorem acceptAll_nil (v : Vector ChanValue 16) : acceptAll v [] = v := rfl

/-- BUS_OPEN and FREQ write no channel, so in either order the shadow is the resets' alone. -/
theorem acceptAll_initTransactions (v : Vector ChanValue 16) (c : Config) (f : Imm) :
    acceptAll v (initTransactions c f) = acceptAll v resetTransactions := by
  cases h : c.initOrder with
  | resetThenFreq =>
    simp only [initTransactions_resetThenFreq h, acceptAll_append, acceptAll_busOpen_cons, acceptAll_freq_cons,
      acceptAll_nil]
  | freqThenReset =>
    simp only [initTransactions_freqThenReset h, acceptAll_append, acceptAll_busOpen_cons, acceptAll_freq_cons,
      acceptAll_nil]

theorem shadowAt_acceptAll_initTransactions (v : Vector ChanValue 16) (c : Config) (f : Imm) (ch : Channel) :
    shadowAt (acceptAll v (initTransactions c f)) ch = .pair 0 0 := by
  rw [acceptAll_initTransactions]
  exact acceptAll_constant v allChannels 0 0 (mem_allChannels ch)

/-! ## The command -/

theorem init_raisesPrecisely {f : Imm} {s : State} {code : FaultCode} (hs : s.faulted = false)
    (h : initChecks f s = .error code) : RaisesPrecisely code (.init f) s :=
  raisesPrecisely_of (runCommand_error hs h)

/-- INIT that passes its checks, with no bus fault: the stream is accepted whole, then INIT_DONE and RESP are written. -/
theorem exec_init_accepted {f : Imm} {s : State} (hs : s.faulted = false) (hc : initChecks f s = .ok ())
    (hp : s.PortAccepts 18) :
    exec (.init f) s = .next (complete 0 (emitted (initTransactions s.cfg f) s).setInitDone) := by
  have hlen : s.PortAccepts (initTransactions s.cfg f).length := by rwa [initTransactions_length]
  exact (runCommand_ok hs hc).trans
    (congrArg _ (transmit_accepted _ (initTransactions s.cfg f) (fun t => complete 0 t.setInitDone) s hlen))

/-- What such an INIT writes and what it leaves, with its transactions by the model's name. -/
theorem init_completes {f : Imm} {s : State} (hs : s.faulted = false) (hc : initChecks f s = .ok ())
    (hp : s.PortAccepts 18) :
    ∃ t, exec (.init f) s = .next t ∧ CompletesWith 0 s t ∧ Emitted (initTransactions s.cfg f) s t ∧ SameSlots s t ∧
      t.initDone = true ∧ t.faulted = false ∧ t.fcode = s.fcode ∧ t.statusReserved = s.statusReserved ∧
      t.fcmd = s.fcmd ∧ ∀ ch, t.chanAt ch = .pair 0 0 := by
  refine ⟨_, exec_init_accepted hs hc hp, ⟨rfl, rfl, rfl, rfl⟩, ⟨rfl, rfl⟩, ⟨rfl, rfl⟩, ?_, ?_, ?_, ?_, rfl,
    shadowAt_acceptAll_initTransactions s.chan s.cfg f⟩
  all_goals simp [hs]

/-- Settles O17: by the three outcomes of INIT's checks, and in the first by the two orders of its transactions. -/
theorem initCompletes : Obligations.InitCompletes := by
  unfold Obligations.InitCompletes
  intro f s hs
  refine ⟨rfl, fun hi hf hp => ?_, ?_, fun hi => init_raisesPrecisely hs (initChecks_reinit f hi)⟩
  · have h := init_completes hs (initChecks_ok hi hf) hp
    cases ho : s.cfg.initOrder with
    | resetThenFreq => rwa [initTransactions_resetThenFreq ho, resetTransactions_eq_map_range] at h
    | freqThenReset => rwa [initTransactions_freqThenReset ho, resetTransactions_eq_map_range] at h
  · rintro hi rfl
    exact init_raisesPrecisely hs (initChecks_range hi)

end Sys2Proof.Machine
end

section
/-! Slot resolution (41_motor_driver R100): what ResolveSlot answers, and that every per-slot command but CLAIM raises
the fault it answers before any check of its own. -/

namespace Sys2Proof.Machine

/-! ## What ResolveSlot answers -/

theorem slotOf_eq_none {mn : MotorNumber} (h1 : mn ≠ 1) (h2 : mn ≠ 2) : slotOf mn = none := by
  rw [slotOf, if_neg h1, if_neg h2]

theorem resolveSlot_badSlot {mn : MotorNumber} (s : State) (h : slotOf mn = none) :
    resolveSlot mn s = .error .badSlot := by
  simp [resolveSlot, h]

theorem resolveSlot_unclaimed {mn : MotorNumber} {k : SlotId} {s : State} (h : slotOf mn = some k)
    (hc : (s.slot k).claimed = false) : resolveSlot mn s = .error .unclaimed := by
  simp [resolveSlot, h, hc]

theorem resolveSlot_ok {mn : MotorNumber} {k : SlotId} {s : State} (h : s.Resolves mn k) :
    resolveSlot mn s = .ok k := by
  simp [resolveSlot, h.1, h.2]

theorem slotChecks_of_initDone {s : State} (mn : MotorNumber) (hi : s.initDone = true) :
    slotChecks mn s = resolveSlot mn s := by
  simp [slotChecks, initialised_ok hi]

/-! ## The checks that begin with it -/

theorem setPositionChecks_eq_bind (mn : MotorNumber) (p : Imm) (s : State) :
    setPositionChecks mn p s =
      (slotChecks mn s).bind fun k => if p.toNat ≥ (s.slot k).nrev.toNat then .error .range else .ok k := by
  unfold setPositionChecks
  cases slotChecks mn s <;> rfl

theorem isAtTargetChecks_eq_bind (mn : MotorNumber) (s : State) :
    isAtTargetChecks mn s = (slotChecks mn s).bind fun k => if (s.slot k).tgtW then .ok k else .error .unwritten := by
  unfold isAtTargetChecks
  cases slotChecks mn s <;> rfl

theorem setSpeedChecks_eq_bind (mn : MotorNumber) (rpm : Imm) (s : State) :
    setSpeedChecks mn rpm s = (slotChecks mn s).bind fun k => if rpm = 0 then .error .div0 else .ok k := by
  unfold setSpeedChecks
  cases slotChecks mn s <;> rfl

theorem getSpeedChecks_eq_bind (mn : MotorNumber) (s : State) :
    getSpeedChecks mn s = (slotChecks mn s).bind fun k => if (s.slot k).spdW then .ok k else .error .unwritten := by
  unfold getSpeedChecks
  cases slotChecks mn s <;> rfl

/-- Every per-slot command but CLAIM raises the fault of its slot's resolution, whatever its other operands. -/
theorem raisesPrecisely_of_slotChecks {i : Instr} {mn : MotorNumber} {s : State} {code : FaultCode}
    (hi : slotOperand i = some mn) (hf : s.faulted = false) (h : slotChecks mn s = .error code) :
    RaisesPrecisely code i s := by
  apply raisesPrecisely_of
  match i, hi with
  | .advance _ _, rfl | .release _, rfl | .setTarget _ _, rfl | .getPosition _, rfl => exact runCommand_error hf h
  | .setPosition _ p, rfl => exact runCommand_error hf (by rw [setPositionChecks_eq_bind, h]; rfl)
  | .isAtTarget _, rfl => exact runCommand_error hf (by rw [isAtTargetChecks_eq_bind, h]; rfl)
  | .setSpeed _ rpm, rfl => exact runCommand_error hf (by rw [setSpeedChecks_eq_bind, h]; rfl)
  | .getSpeed _, rfl => exact runCommand_error hf (by rw [getSpeedChecks_eq_bind, h]; rfl)

/-- Settles O16: at a ready engine the slot's checks are ResolveSlot, whose faults every such command raises first. -/
theorem slotFaults : Obligations.SlotFaults := by
  unfold Obligations.SlotFaults
  intro i mn s hi hs
  have raises : ∀ {code}, resolveSlot mn s = .error code → RaisesPrecisely code i s := fun h =>
    raisesPrecisely_of_slotChecks hi hs.1 ((slotChecks_of_initDone mn hs.2).trans h)
  refine ⟨fun h1 h2 => raises (resolveSlot_badSlot s (slotOf_eq_none h1 h2)), ?_, ?_, ?_, ?_⟩
  · rintro rfl hc
    exact raises (resolveSlot_unclaimed (k := .slot0) rfl hc)
  · rintro rfl hc
    exact raises (resolveSlot_unclaimed (k := .slot1) rfl hc)
  · rintro rfl hc
    exact resolveSlot_ok ⟨rfl, hc⟩
  · rintro rfl hc
    exact resolveSlot_ok ⟨rfl, hc⟩

end Sys2Proof.Machine
end

section
/-! The two frames of a motor command without transactions: one that writes RESP only, and one that also writes the
registers of one slot. -/

namespace Sys2Proof.Machine

/-- A command that writes RESP only. -/
theorem respOnly_completes {i : Instr} {s : State} {r : BitVec 32} (h : exec i s = .next (complete r s)) :
    ∃ t, exec i s = .next t ∧ CompletesWith r s t ∧ SameSlots s t ∧ SameFaultRegs s t ∧ SamePort s t :=
  ⟨_, h, ⟨rfl, rfl, rfl, rfl⟩, ⟨rfl, rfl⟩, ⟨rfl, rfl⟩, ⟨rfl, rfl, rfl⟩⟩

/-- A command that writes RESP and the registers of slot `k`. -/
theorem slotWrite_completes {i : Instr} {s : State} {k : SlotId} {v : Slot} {r : BitVec 32}
    (h : exec i s = .next (complete r (s.setSlot k v))) :
    ∃ t, exec i s = .next t ∧ CompletesWith r s t ∧ t.slot k = v ∧ t.slot (otherSlot k) = s.slot (otherSlot k) ∧
      SameFaultRegs s t ∧ SamePort s t := by
  refine ⟨_, h, ?_⟩
  simp [CompletesWith, SameOutside, SameFaultRegs, SamePort]

end Sys2Proof.Machine
end

section
/-! CLAIM (41_motor_driver R105 to R108): which slot it configures, the lengths it refuses, and its three outcomes. -/

namespace Sys2Proof.Machine

/-! ## The slot configured and the handle -/

theorem claimTarget_null {mn : MotorNumber} (s : State) (h : slotOf mn = none) : claimTarget mn s = none := by
  simp [claimTarget, h]

theorem claimTarget_ignored {mn : MotorNumber} {k : SlotId} {s : State} (h : slotOf mn = some k)
    (hc : (s.slot k).claimed = true) (hr : ¬(s.cfg.slot0Rearm = true ∧ k = .slot0)) : claimTarget mn s = none := by
  simpa [claimTarget, h, hc] using hr

theorem claimTarget_configured {mn : MotorNumber} {k : SlotId} {s : State} (h : slotOf mn = some k)
    (hc : (s.slot k).claimed = false ∨ (s.cfg.slot0Rearm = true ∧ k = .slot0)) : claimTarget mn s = some k := by
  obtain hc | ⟨hr, rfl⟩ := hc
  · simp [claimTarget, h, hc]
  · simp [claimTarget, h, hr]

theorem claimHandle_null {mn : MotorNumber} (h : slotOf mn = none) : claimHandle mn = 0 := by
  simp [claimHandle, h]

theorem claimHandle_of_slotOf {mn : MotorNumber} {k : SlotId} (h : slotOf mn = some k) :
    claimHandle mn = mn.setWidth 32 := by
  simp [claimHandle, h, zext32]

/-! ## The revolution length -/

theorem badRevolution_iff (c : Config) (steps : Imm) :
    badRevolution c steps = true ↔ steps.toNat = 0 ∨ steps.toNat * c.m > 65536 := by
  simp [badRevolution, ← BitVec.toNat_inj]

theorem badRevolution_eq_false {c : Config} {steps : Imm} (h0 : 0 < steps.toNat) (hle : steps.toNat * c.m ≤ 65536) :
    badRevolution c steps = false := by
  rw [Bool.eq_false_iff, ne_eq, badRevolution_iff]
  omega

/-- A length that is not refused fits NREV. -/
theorem toNat_revolution {n : Nat} (h : n ≤ 65536) : (BitVec.ofNat 17 n).toNat = n := by
  rw [BitVec.toNat_ofNat, Nat.mod_eq_of_lt (by omega)]

/-! ## The outcomes -/

/-- CLAIM of no slot to configure returns its handle and changes nothing else. -/
theorem exec_claim_ignored {mn : MotorNumber} (steps : Imm) {s : State} (hs : s.Ready) (h : claimTarget mn s = none) :
    exec (.claim mn steps) s = .next (complete (claimHandle mn) s) :=
  runCommand_ok (a := none) hs.1 (by simp [claimChecks, initialised_ok hs.2, h])

theorem claim_raisesRange {mn : MotorNumber} {steps : Imm} {k : SlotId} {s : State} (hs : s.Ready)
    (h : claimTarget mn s = some k) (hb : steps.toNat = 0 ∨ steps.toNat * s.cfg.m > 65536) :
    RaisesPrecisely .range (.claim mn steps) s := by
  have hbad := (badRevolution_iff s.cfg steps).2 hb
  exact raisesPrecisely_of (runCommand_error hs.1 (by simp [claimChecks, initialised_ok hs.2, h, hbad]))

theorem exec_claim_configures {mn : MotorNumber} {steps : Imm} {k : SlotId} {s : State} (hs : s.Ready)
    (h : claimTarget mn s = some k) (hb : badRevolution s.cfg steps = false) :
    exec (.claim mn steps) s = .next (complete (claimHandle mn) (configureSlot k steps s)) :=
  runCommand_ok (a := some k) hs.1 (by simp [claimChecks, initialised_ok hs.2, h, hb])

/-- A repeated CLAIM that SLOT0_REARM does not let through. -/
theorem claim_repeat_completes {mn : MotorNumber} (steps : Imm) {k : SlotId} {s : State} (hs : s.Ready)
    (h : slotOf mn = some k) (hc : (s.slot k).claimed = true) (hr : ¬(s.cfg.slot0Rearm = true ∧ k = .slot0)) :
    ∃ t, exec (.claim mn steps) s = .next t ∧ CompletesWith (mn.setWidth 32) s t ∧ SameSlots s t ∧
      SameFaultRegs s t ∧ SamePort s t := by
  rw [← claimHandle_of_slotOf h]
  exact respOnly_completes (exec_claim_ignored steps hs (claimTarget_ignored h hc hr))

/-- CLAIM that configures slot `k` with a length it does not refuse. -/
theorem claim_configures_completes {mn : MotorNumber} {steps : Imm} {k : SlotId} {s : State} (hs : s.Ready)
    (h : slotOf mn = some k) (ht : claimTarget mn s = some k) (h0 : 0 < steps.toNat)
    (hle : steps.toNat * s.cfg.m ≤ 65536) :
    ∃ t, exec (.claim mn steps) s = .next t ∧ CompletesWith (mn.setWidth 32) s t ∧
      (t.slot k).nrev.toNat = steps.toNat * s.cfg.m ∧
      t.slot k = { s.slot k with claimed := true, nrev := (t.slot k).nrev } ∧
      t.slot (otherSlot k) = s.slot (otherSlot k) ∧ SameFaultRegs s t ∧ SamePort s t := by
  obtain ⟨t, hex, hcomp, hslot, hframe⟩ :=
    slotWrite_completes (exec_claim_configures hs ht (badRevolution_eq_false h0 hle))
  rw [claimHandle_of_slotOf h] at hcomp
  exact ⟨t, hex, hcomp, by rw [hslot, toNat_revolution hle], by rw [hslot], hframe⟩

/-- Settles O21: by the slot CLAIM names and whether it configures it; a null handle and an ignored repeat write RESP
only. -/
theorem claimCompletes : Obligations.ClaimCompletes := by
  unfold Obligations.ClaimCompletes
  intro mn steps s hs
  refine ⟨rfl, fun h1 h2 => ?_, fun k h => ⟨claim_repeat_completes steps hs h, fun hc => ?_⟩⟩
  · have h := slotOf_eq_none h1 h2
    rw [← claimHandle_null h]
    exact respOnly_completes (exec_claim_ignored steps hs (claimTarget_null s h))
  · have ht := claimTarget_configured h hc
    exact ⟨claim_raisesRange hs ht, claim_configures_completes hs h ht⟩

/-- Settles O22: without the re-arm the repeat configures no slot; with it slot 0 is configured again, and a CLAIMED
that was 1 stays. -/
theorem claimRepeated : Obligations.ClaimRepeated := by
  unfold Obligations.ClaimRepeated
  intro mn steps k s hs h hc
  refine ⟨fun hr => claim_repeat_completes steps hs h hc ?_, ?_⟩
  · rintro ⟨hrearm, rfl⟩
    simp [hrearm] at hr
  · rintro hrearm rfl
    have ht := claimTarget_configured h (.inr ⟨hrearm, rfl⟩)
    refine ⟨fun h0 hle => ?_, claim_raisesRange hs ht⟩
    obtain ⟨t, hex, hcomp, hnrev, hslot, hframe⟩ := claim_configures_completes hs h ht h0 hle
    rw [← hc] at hslot
    exact ⟨t, hex, hcomp, hnrev, hslot, hframe⟩

end Sys2Proof.Machine
end

section
/-! The channels a stream of accepted transactions writes: written once each, every one holds its pair; a channel it
does not write stands. -/

namespace Sys2Proof.Machine

/-- The PWM transactions of a stream, as channels with their pairs. -/
def pwmPairs (ts : List Transaction) : List (Channel × Half × Half) :=
  ts.filterMap fun
    | .pwm ch on off => some (ch, on, off)
    | _ => none

/-- The channels of the PWM transactions of a stream, in order. -/
def writtenChannels (ts : List Transaction) : List Channel := (pwmPairs ts).map Prod.fst

theorem mem_pwmPairs {ts : List Transaction} {ch : Channel} {on off : Half} (h : .pwm ch on off ∈ ts) :
    (ch, on, off) ∈ pwmPairs ts :=
  List.mem_filterMap.2 ⟨_, h, rfl⟩

theorem mem_writtenChannels {ts : List Transaction} {ch : Channel} {on off : Half} (h : .pwm ch on off ∈ ts) :
    ch ∈ writtenChannels ts :=
  List.mem_map_of_mem (f := Prod.fst) (mem_pwmPairs h)

/-- Only the PWM transactions of a stream touch the shadow. -/
theorem acceptAll_pwmPairs (c : Vector ChanValue 16) (ts : List Transaction) :
    acceptAll c ((pwmPairs ts).map (fun x => .pwm x.1 x.2.1 x.2.2)) = acceptAll c ts := by
  induction ts generalizing c with
  | nil => rfl
  | cons e ts ih => cases e <;> exact ih _

theorem shadowAt_acceptAll_of_mem (c : Vector ChanValue 16) {ts : List Transaction} {ch : Channel} {on off : Half}
    (hnodup : (writtenChannels ts).Nodup) (hmem : .pwm ch on off ∈ ts) :
    shadowAt (acceptAll c ts) ch = .pair on off := by
  rw [← acceptAll_pwmPairs]
  exact acceptAll_distinct c (pwmPairs ts) hnodup (mem_pwmPairs hmem)

theorem shadowAt_acceptAll_of_notMem (c : Vector ChanValue 16) {ts : List Transaction} {ch : Channel}
    (h : ch ∉ writtenChannels ts) : shadowAt (acceptAll c ts) ch = shadowAt c ch := by
  apply acceptAll_of_not_written
  rintro e he on off rfl
  exact h (mem_writtenChannels he)

end Sys2Proof.Machine
end

section
/-! ADVANCE and RELEASE (41_motor_driver R109 to R115): six transactions, one on each of the slot's channels. -/

namespace Sys2Proof.Machine

/-! ## The channels written -/

/-- The channels of ADVANCE, in its order (41_motor_driver R112). -/
def advanceChannels (p : Pins) : List Channel := [p.pwma, p.pwmb, p.ain2, p.bin1, p.ain1, p.bin2]

/-- The channels of RELEASE, in its order (41_motor_driver R115). -/
def releaseChannels (p : Pins) : List Channel := [p.ain1, p.ain2, p.bin1, p.bin2, p.pwma, p.pwmb]

theorem advanceChannels_perm (p : Pins) : (advanceChannels p).Perm p.channels := by
  simp only [List.perm_iff_count, advanceChannels, Pins.channels, List.count_cons]
  omega

theorem releaseChannels_perm (p : Pins) : (releaseChannels p).Perm p.channels := by
  simp only [List.perm_iff_count, releaseChannels, Pins.channels, List.count_cons]
  omega

theorem writtenChannels_advanceWrites (c : Config) (k : SlotId) (p : Nat) (dA dB : Duty) :
    writtenChannels (advanceWrites c k p dA dB) = advanceChannels (c.pins k) := rfl

theorem releaseTransactions_eq_map (p : Pins) :
    releaseTransactions p = (releaseChannels p).map (fun ch => .pwm ch 0 0) := releaseTransactions_eq p

theorem writtenChannels_releaseTransactions (p : Pins) :
    writtenChannels (releaseTransactions p) = releaseChannels p := by
  rw [releaseTransactions_eq]
  rfl

/-! ## The shadow after them -/

theorem shadowAt_acceptAll_advanceWrites (v : Vector ChanValue 16) {c : Config} (hw : c.wf = true) (k : SlotId)
    (p : Nat) (dA dB : Duty) {ch : Channel} {on off : Half} (h : .pwm ch on off ∈ advanceWrites c k p dA dB) :
    shadowAt (acceptAll v (advanceWrites c k p dA dB)) ch = .pair on off := by
  refine shadowAt_acceptAll_of_mem v ?_ h
  rw [writtenChannels_advanceWrites, (advanceChannels_perm (c.pins k)).nodup_iff]
  exact channels_nodup (pinsOk_of_wf hw) k

theorem shadowAt_acceptAll_advanceWrites_other (v : Vector ChanValue 16) (c : Config) (k : SlotId) (p : Nat)
    (dA dB : Duty) {ch : Channel} (h : ch ∉ (c.pins k).channels) :
    shadowAt (acceptAll v (advanceWrites c k p dA dB)) ch = shadowAt v ch := by
  apply shadowAt_acceptAll_of_notMem
  rwa [writtenChannels_advanceWrites, (advanceChannels_perm (c.pins k)).mem_iff]

theorem shadowAt_acceptAll_releaseTransactions (v : Vector ChanValue 16) (p : Pins) {ch : Channel}
    (h : ch ∈ p.channels) : shadowAt (acceptAll v (releaseTransactions p)) ch = .pair 0 0 := by
  rw [releaseTransactions_eq_map]
  exact acceptAll_constant v (releaseChannels p) 0 0 ((releaseChannels_perm p).mem_iff.2 h)

theorem shadowAt_acceptAll_releaseTransactions_other (v : Vector ChanValue 16) (p : Pins) {ch : Channel}
    (h : ch ∉ p.channels) : shadowAt (acceptAll v (releaseTransactions p)) ch = shadowAt v ch := by
  apply shadowAt_acceptAll_of_notMem
  rwa [writtenChannels_releaseTransactions, (releaseChannels_perm p).mem_iff]

/-! ## The commands -/

theorem portAccepts_setSlot {s : State} {n : Nat} (h : s.PortAccepts n) (k : SlotId) (v : Slot) :
    (s.setSlot k v).PortAccepts n :=
  portAccepts_of_answers (m := 0) (setSlot_answers k v s) (by rwa [Nat.zero_add])

/-- ADVANCE with no bus fault: the slot has moved, and the stream of its new phase is accepted whole. -/
theorem exec_advance_accepted {mn : MotorNumber} (dir : Direction) {k : SlotId} {s : State} (hs : s.Ready)
    (hr : s.Resolves mn k) (hw : s.cfg.wf = true) (hp : s.PortAccepts 6) :
    ∃ dA dB, s.cfg.excTable[coilIndexA s.cfg.m (moveSlot s.cfg dir (s.slot k)).phase.toNat]? = some dA ∧
      s.cfg.excTable[coilIndexB s.cfg.m (moveSlot s.cfg dir (s.slot k)).phase.toNat]? = some dB ∧
      exec (.advance mn dir) s =
        .next (complete (zext32 (moveSlot s.cfg dir (s.slot k)).pos)
          (emitted (advanceWrites s.cfg k (moveSlot s.cfg dir (s.slot k)).phase.toNat dA dB)
            (s.setSlot k (moveSlot s.cfg dir (s.slot k))))) := by
  obtain ⟨dA, dB, hA, hB, hex⟩ := execAdvance_eq dir hs hr hw
  exact ⟨dA, dB, hA, hB,
    hex.trans (congrArg _ (transmit_accepted _ (advanceWrites ..) _ _ (portAccepts_setSlot hp k _)))⟩

theorem exec_release_accepted {mn : MotorNumber} {k : SlotId} {s : State} (hs : s.Ready) (hr : s.Resolves mn k)
    (hp : s.PortAccepts 6) :
    exec (.release mn) s = .next (complete 0 (emitted (releaseTransactions (s.cfg.pins k)) s)) :=
  (runCommand_ok hs.1 (slotChecks_ok hs.2 hr)).trans
    (congrArg _ (transmit_accepted _ (releaseTransactions (s.cfg.pins k)) _ s hp))

/-- Settles O23: the slot moves as `moveSlot` says in closed form, and the six transactions write six distinct channels
after it. -/
theorem advanceCompletes : Obligations.AdvanceCompletes := by
  unfold Obligations.AdvanceCompletes
  intro mn dir k s hs hr hw h0 hle hp
  refine ⟨by cases dir <;> rfl, ?_⟩
  obtain ⟨dA, dB, hA, hB, hex⟩ := exec_advance_accepted dir hs hr hw hp
  have hphase := moveSlot_phase s.cfg dir (s.slot k)
  have hpos := moveSlot_pos s.cfg dir (s.slot k) h0 hle
  have hother := slot_setSlot_other k (moveSlot s.cfg dir (s.slot k)) s
  refine ⟨_, dA, dB, hex, ?_⟩
  simp only [slot_complete, emitted_slot, slot_setSlot, chanAt_complete_emitted, setSlot_chan]
  refine ⟨hphase, hpos, rfl, ?_, hother, ?_, hA, hB, ?_, ?_, ?_⟩
  · simp [CompletesWith, SameOutside, zext32]
  · simp [SameFaultRegs]
  · simp [Emitted, emitted]
  · exact fun ch on off => shadowAt_acceptAll_advanceWrites s.chan hw k _ dA dB
  · exact fun ch => shadowAt_acceptAll_advanceWrites_other s.chan s.cfg k _ dA dB

/-- Settles O24: the six transactions all carry (0, 0) on the slot's channels, and only RESP is written besides. -/
theorem releaseCompletes : Obligations.ReleaseCompletes := by
  unfold Obligations.ReleaseCompletes
  intro mn k s hs hr hp
  refine ⟨rfl, _, exec_release_accepted hs hr hp, ⟨rfl, rfl, rfl, rfl⟩, ⟨rfl, rfl⟩, ⟨rfl, rfl⟩, ?_, ?_, ?_⟩
  · rw [← releaseTransactions_eq]
    exact ⟨rfl, rfl⟩
  · exact fun ch => shadowAt_acceptAll_releaseTransactions s.chan (s.cfg.pins k)
  · exact fun ch => shadowAt_acceptAll_releaseTransactions_other s.chan (s.cfg.pins k)

end Sys2Proof.Machine
end

section
/-! Target, position and speed (41_motor_driver R116 to R121): the check a command adds to its slot's resolution, and
the value it stores or returns. -/

namespace Sys2Proof.Machine

/-! ## Target and position -/

/-- Settles O26: the slot's resolution is the only check, and the command writes the slot. -/
theorem setTargetCompletes : Obligations.SetTargetCompletes := by
  unfold Obligations.SetTargetCompletes
  intro mn p k s hs hr
  exact ⟨rfl, slotWrite_completes (runCommand_ok hs.1 (slotChecks_ok hs.2 hr))⟩

/-- Settles O27: by the comparison of the position with NREV. -/
theorem setPositionCompletes : Obligations.SetPositionCompletes := by
  unfold Obligations.SetPositionCompletes
  intro mn p k s hs hr
  have hc := setPositionChecks_eq_bind mn p s
  rw [slotChecks_ok hs.2 hr] at hc
  refine ⟨rfl, fun hlt => ?_, fun hge => ?_⟩
  · exact slotWrite_completes (runCommand_ok hs.1 (hc.trans (if_neg (Nat.not_le.2 hlt))))
  · exact raisesPrecisely_of (runCommand_error hs.1 (hc.trans (if_pos hge)))

theorem boolResult_decide (p : Prop) [Decidable p] : boolResult (decide p) = if p then 1 else 0 := by
  simp [boolResult]

/-- Settles O28: by whether TARGET is written; the result is the decided equality. -/
theorem isAtTargetCompletes : Obligations.IsAtTargetCompletes := by
  unfold Obligations.IsAtTargetCompletes
  intro mn k s hs hr
  have hc := isAtTargetChecks_eq_bind mn s
  rw [slotChecks_ok hs.2 hr] at hc
  refine ⟨rfl, fun hw => ?_, fun hw => ?_⟩
  · rw [← boolResult_decide]
    exact respOnly_completes (runCommand_ok hs.1 (hc.trans (if_pos hw)))
  · exact raisesPrecisely_of (runCommand_error hs.1 (hc.trans (if_neg (Bool.eq_false_iff.1 hw))))

/-- Settles O29: the slot's resolution is the only check, and the command writes RESP only. -/
theorem getPositionCompletes : Obligations.GetPositionCompletes := by
  unfold Obligations.GetPositionCompletes
  intro mn k s hs hr
  exact ⟨rfl, respOnly_completes (runCommand_ok hs.1 (slotChecks_ok hs.2 hr))⟩

/-! ## Speed -/

/-- The interval is the truncated quotient (41_motor_driver R120). -/
theorem speedInterval_bounds {nrev : BitVec 17} {rpm : Imm} (h : 0 < nrev.toNat * rpm.toNat) :
    (speedInterval nrev rpm).toNat * (nrev.toNat * rpm.toNat) ≤ 60000000 ∧
      60000000 < ((speedInterval nrev rpm).toNat + 1) * (nrev.toNat * rpm.toNat) := by
  rw [speedInterval_toNat h]
  exact ⟨Nat.div_mul_le_self _ _, (Nat.div_lt_iff_lt_mul h).1 (Nat.lt_succ_self _)⟩

theorem exec_setSpeed_of_ne_zero {mn : MotorNumber} {rpm : Imm} {k : SlotId} {s : State} (hs : s.Ready)
    (hr : s.Resolves mn k) (h0 : rpm ≠ 0) :
    exec (.setSpeed mn rpm) s =
      .next (complete 0
        (s.setSlot k { s.slot k with speed := speedInterval (s.slot k).nrev rpm, spdW := true })) :=
  runCommand_ok hs.1 (by rw [setSpeedChecks_eq_bind, slotChecks_ok hs.2 hr]; exact if_neg h0)

/-- Settles O30: by whether the rpm is 0; for any other the divisor is positive, as NREV is. -/
theorem setSpeedCompletes : Obligations.SetSpeedCompletes := by
  unfold Obligations.SetSpeedCompletes
  intro mn rpm k s hs hr hn
  refine ⟨rfl, fun h0 => ?_, fun h0 => ?_⟩
  · have hrpm : 0 < rpm.toNat := Nat.pos_of_ne_zero (fun h => h0 (BitVec.eq_of_toNat_eq h))
    obtain ⟨hle, hlt⟩ := speedInterval_bounds (Nat.mul_pos hn hrpm)
    obtain ⟨t, hex, hcomp, hslot, hframe⟩ := slotWrite_completes (exec_setSpeed_of_ne_zero hs hr h0)
    exact ⟨t, hex, hcomp, by rwa [hslot], by rwa [hslot], by rw [hslot], hframe⟩
  · exact raisesPrecisely_of
      (runCommand_error hs.1 (by rw [setSpeedChecks_eq_bind, slotChecks_ok hs.2 hr]; exact if_pos h0))

/-- Settles O31: by whether SPEED is written. -/
theorem getSpeedCompletes : Obligations.GetSpeedCompletes := by
  unfold Obligations.GetSpeedCompletes
  intro mn k s hs hr
  have hc := getSpeedChecks_eq_bind mn s
  rw [slotChecks_ok hs.2 hr] at hc
  refine ⟨rfl, fun hw => ?_, fun hw => ?_⟩
  · exact respOnly_completes (runCommand_ok hs.1 (hc.trans (if_pos hw)))
  · exact raisesPrecisely_of (runCommand_error hs.1 (hc.trans (if_neg (Bool.eq_false_iff.1 hw))))

end Sys2Proof.Machine
end

section
/-! Reset (70_reset R160, R161): the slot registers a reset leaves, what `step` does with a reset and with no pending
interaction, and the state after reset as a state that a reset leaves. -/

namespace Sys2Proof.Machine

/-- The slot registers of R40 after a reset, for both slots; the bits behind an unwritten TARGET or SPEED are left
out (log 8). -/
theorem slotRegisters_applyReset (s : State) (k : SlotId) :
    ((applyReset s).slot k).claimed = false ∧ ((applyReset s).slot k).nrev = 0 ∧
      ((applyReset s).slot k).phase = 0 ∧ ((applyReset s).slot k).pos = 0 ∧
      ((applyReset s).slot k).tgtW = false ∧ ((applyReset s).slot k).spdW = false := by
  rw [slot_applyReset]
  exact ⟨rfl, rfl, rfl, rfl, rfl, rfl⟩

/-- The state after reset is a fixed point of reset, so the laws of `applyReset` speak of it. -/
theorem applyReset_resetWith (c : Config) : applyReset (State.resetWith c) = State.resetWith c := rfl

/-- Serving a reset does not ask whether the engine is halted. -/
theorem serve_of_reset {s : State} {rest : List HostInput} (h : s.inputs = .reset :: rest) :
    serve s = .settled (applyReset { s with inputs := rest }) := by
  simp only [serve, h]

theorem serve_of_no_inputs {s : State} (h : s.inputs = []) : serve s = .settled s := by
  simp only [serve, h]

/-- Settles O12: the reset is served as `applyReset`, whose laws give each register its reset value and keep the
parameters. -/
theorem resetInput : Obligations.ResetInput := by
  unfold Obligations.ResetInput
  intro s rest h
  exact ⟨_, step_of_serve_settled (serve_of_reset h), applyReset_cfg _, applyReset_inputs _, faulted_applyReset _,
    applyReset_status _, applyReset_resp _, applyReset_fcmd _, chanAt_applyReset _, slotRegisters_applyReset _⟩

/-- Settles O11: the state after reset is what a reset leaves of it, so it holds the values of `applyReset`; nothing is
pending in it, so the engine waits. -/
theorem resetValues : Obligations.ResetValues := by
  unfold Obligations.ResetValues
  intro c
  have hwait : step (State.resetWith c) = .next (State.resetWith c) :=
    step_of_serve_settled (serve_of_no_inputs rfl)
  rw [← applyReset_resetWith c] at hwait ⊢
  exact ⟨applyReset_cfg _, initDone_applyReset _, faulted_applyReset _, fcode_applyReset _, applyReset_status _,
    applyReset_resp _, applyReset_fcmd _, applyReset_out _, chanAt_applyReset _, slotRegisters_applyReset _, hwait⟩

end Sys2Proof.Machine
end

section
/-! The encoder's words read back (30_encoding R68, R74, R75): the decoder takes the arm of the word's OPC and finds the
must-be-zero fields zero; and the rows of the opcode map are told apart by their OPC. -/

namespace Sys2Proof

/-! ## Encoded words decode -/

theorem directionOf_directionBit (dir : Direction) : directionOf (directionBit dir) = dir := by cases dir <;> rfl

/-- Settles O1: the fields of an encoded command select its arm and pass its must-be-zero test; a reserved code keeps
its low bits. -/
theorem decodeEncode : Obligations.DecodeEncode := by
  unfold Obligations.DecodeEncode
  intro i
  cases i with
  | reserved0 low | reservedD low | reservedE low | reservedF low =>
    simp only [encode, decode, reserved_word_opc, reserved_word_low]
    rfl
  | setRail ch high => cases high <;> simp [encode, decode, ifZero]
  | advance mn dir => simp [encode, decode, ifZero, directionOf_directionBit]
  | _ => simp [encode, decode, ifZero, motorFields]

/-- Settles O2, by `encode_of_decode`. -/
theorem encodeDecode : Obligations.EncodeDecode := fun _ _ => encode_of_decode

/-! ## The rows -/

theorem allRows_mask_opc : ∀ r ∈ commandRows ++ reservedRows, (fieldsOf r.mask).opc = BitVec.allOnes 4 := by decide

theorem allRows_opc_injective : ∀ r ∈ commandRows ++ reservedRows, ∀ r' ∈ commandRows ++ reservedRows,
    (fieldsOf r.pattern).opc = (fieldsOf r'.pattern).opc → r = r' := by decide

/-- A word that matches a row, of the commands or reserved, has the row's OPC. -/
theorem opc_of_matches {w : CmdWord} {r : Row} (hr : r ∈ commandRows ++ reservedRows) (hw : r.matches w = true) :
    (fieldsOf w).opc = (fieldsOf r.pattern).opc := by
  obtain ⟨hopc, -⟩ := (row_matches_iff r w).1 hw
  rwa [allRows_mask_opc r hr, BitVec.and_allOnes] at hopc

/-- Settles O4: both rows have the word's OPC, and no two rows share one. -/
theorem rowsDisjoint : Obligations.RowsDisjoint := by
  unfold Obligations.RowsDisjoint
  intro w r hr r' hr' hw hw'
  exact allRows_opc_injective r hr r' hr' ((opc_of_matches hr hw).symm.trans (opc_of_matches hr' hw'))

/-- Settles O6: each word is decoded in full. -/
theorem encodingExamples : Obligations.EncodingExamples := by
  unfold Obligations.EncodingExamples
  decide

end Sys2Proof
end

section
/-! The two ways a command that passed its checks can end, in registers: completed with its whole stream accepted, or
ended by a bus fault. Facts about OUT, CHAN, STATUS and FCMD are read off these. -/

namespace Sys2Proof.Machine

/-- The transactions of a command that passed its checks: at most 18 legal ones, those of INIT for INIT, and no other
command runs before initialisation. -/
structure CommandStream (i : Instr) (s : State) (ts : List Transaction) : Prop where
  length : ts.length ≤ 18
  legal : ∀ e ∈ ts, LegalTransaction e
  ofInit : i.isInit = true → s.initDone = false ∧ ∃ f, f ≠ 0 ∧ ts = initTransactions s.cfg f
  ofOther : i.isInit = false → s.initDone = true

/-- The command completed, the Port having accepted all of `ts`. -/
structure Completed (i : Instr) (s t : State) (ts : List Transaction) : Prop where
  emitted : Emitted ts s t
  chan : t.chan = acceptAll s.chan ts
  outside : SameOutside s t
  pc : t.pc = s.pc + 1
  initDone : t.initDone = (i.isInit || s.initDone)
  faulted : t.faulted = s.faulted
  fcode : t.fcode = s.fcode
  statusReserved : t.statusReserved = s.statusReserved
  fcmd : t.fcmd = s.fcmd

/-- The Port accepted `before` and answered `last` with a bus fault, which ended the command (60_exceptions R146). -/
structure BusFaulted (i : Instr) (s t : State) (before : List Transaction) (last : Transaction) : Prop where
  emitted : Emitted (before ++ [last]) s t
  chan : t.chan = shadowAfter (acceptAll s.chan before) last .busFault
  raised : RaisedFault .bus (encode i) s t

theorem Shape.commandStream {i : Instr} {s t u : State} {ts : List Transaction} {finish : State → State}
    (h : Shape i s t u ts finish) : CommandStream i s ts where
  length := h.length
  legal := h.legal
  ofInit hi := by
    obtain ⟨f, hf, hd, hts, -⟩ := h.ofInit hi
    exact ⟨hd, f, hf, hts⟩
  ofOther hi := (h.ofOther hi).1

/-- The flags of STATUS are read from STATUS alone. -/
theorem flags_of_status {s t : State} (h : t.status = s.status) :
    t.initDone = s.initDone ∧ t.faulted = s.faulted ∧ t.fcode = s.fcode ∧ t.statusReserved = s.statusReserved := by
  simp [State.initDone, State.faulted, State.fcode, State.statusReserved, h]

theorem Shape.completed {i : Instr} {s t u : State} {ts : List Transaction} {finish : State → State}
    (h : Shape i s t u ts finish) (ht : t = finish (emitted ts u)) : Completed i s t ts := by
  obtain ⟨hout, hans, hchan, hcfg, hstatus, hfcmd, -, hpc, hin⟩ := h.before
  obtain ⟨hd, hf, hc, hr⟩ := flags_of_status hstatus
  obtain ⟨aout, aans, achan, acfg, ain, acode, afaulted, ares, afcmd, apc, -⟩ := h.after (Machine.emitted ts u)
  have hinit : (finish (Machine.emitted ts u)).initDone = (i.isInit || s.initDone) := by
    cases hi : i.isInit
    · rw [(h.ofOther hi).2, emitted_initDone, hd, Bool.false_or]
    · obtain ⟨-, -, -, -, hdone⟩ := h.ofInit hi
      rw [hdone, Bool.true_or]
  subst ht
  exact {
    emitted := ⟨aout.trans (congrArg (· ++ ts) hout), aans.trans (congrArg (List.drop ts.length) hans)⟩
    chan := achan.trans (congrArg (acceptAll · ts) hchan)
    outside := ⟨acfg.trans hcfg, ain.trans hin⟩
    pc := apc.trans (congrArg (· + 1) hpc)
    initDone := hinit
    faulted := afaulted.trans hf
    fcode := acode.trans hc
    statusReserved := ares.trans hr
    fcmd := afcmd.trans hfcmd }

theorem Shape.busFaulted {i : Instr} {s t u : State} {ts : List Transaction} {finish : State → State}
    {before : List Transaction} {last : Transaction} (h : Shape i s t u ts finish)
    (ht : t = raiseFault .bus (encode i) (emittedFault before last u)) : BusFaulted i s t before last := by
  obtain ⟨hout, hans, hchan, hcfg, hstatus, -, hresp, hpc, hin⟩ := h.before
  obtain ⟨hd, -, -, hr⟩ := flags_of_status hstatus
  subst ht
  constructor
  · simp [Emitted, emittedFault, *]
  · simp [emittedFault, *]
  · simp [RaisedFault, SameOutside, *]

/-- Everything the effect of a command can leave, but for the slots. -/
theorem effect_outcome {i : Instr} {s t : State} (he : Effect i s t) :
    ∃ ts, CommandStream i s ts ∧ (Completed i s t ts ∨
      ∃ before last rest, ts = before ++ last :: rest ∧ BusFaulted i s t before last) := by
  obtain ⟨u, ts, finish, h⟩ := effect_shape he
  refine ⟨ts, h.commandStream, ?_⟩
  obtain ⟨-, e⟩ | ⟨before, last, rest, hts, -, e⟩ := transmit_cases (encode i) ts finish u
  · exact .inl (h.completed (h.eq.trans e))
  · exact .inr ⟨before, last, rest, hts, h.busFaulted (h.eq.trans e)⟩

/-- A command completes at an initialised engine only, or initialises it. -/
theorem Completed.initDone_eq_true {i : Instr} {s t : State} {ts : List Transaction} (h : Completed i s t ts)
    (hts : CommandStream i s ts) : t.initDone = true := by
  rw [h.initDone]
  cases hi : i.isInit
  · exact hts.ofOther hi
  · rfl

end Sys2Proof.Machine
end

section
/-! What a command can change (10_state R39, 60_exceptions R143, R146): faults 1 to 8 nothing but STATUS and FCMD, OUT
only at its end, and each register only by its writers. -/

namespace Sys2Proof.Machine

/-! ## Faults and OUT -/

theorem fcode_ne_bus {code : FaultCode} (h : code ≠ .bus) : code.bits ≠ FaultCode.bus.bits := by
  cases code with
  | bus => exact absurd rfl h
  | _ => decide

/-- Settles O42: a command records the fault of its checks or a bus fault, or completes. -/
theorem completesOrFaults : Obligations.CompletesOrFaults := by
  unfold Obligations.CompletesOrFaults
  intro i s t h
  obtain ⟨hf, ⟨code, -, rfl⟩ | he⟩ := exec_next h
  · exact ⟨hf, .inr ⟨code, raisedFault_raiseFault code _ s⟩⟩
  · obtain ⟨ts, -, hc | ⟨before, last, rest, -, hb⟩⟩ := effect_outcome he
    · exact ⟨hf, .inl ⟨hc.faulted.trans hf, hc.pc, hc.fcode, hc.fcmd⟩⟩
    · exact ⟨hf, .inr ⟨.bus, hb.raised⟩⟩

/-- Settles O43: a recorded fault other than BUS is one of the checks, which come before every write. -/
theorem faultsArePrecise : Obligations.FaultsArePrecise := by
  unfold Obligations.FaultsArePrecise
  intro i s t h ht hcode
  obtain ⟨hf, ⟨code, -, rfl⟩ | he⟩ := exec_next h
  · exact ⟨⟨rfl, rfl⟩, ⟨rfl, rfl, rfl⟩, ⟨rfl, rfl⟩, rfl, rfl, initDone_raiseFault ..⟩
  · obtain ⟨ts, -, hc | ⟨before, last, rest, -, hb⟩⟩ := effect_outcome he
    · rw [hc.faulted, hf] at ht
      cases ht
    · obtain ⟨-, hbus, -⟩ := hb.raised
      exact absurd hbus hcode

/-- Settles O44: OUT grows by nothing, by the whole stream of the command, or by its part up to the bus fault. -/
theorem outOnlyGrows : Obligations.OutOnlyGrows := by
  unfold Obligations.OutOnlyGrows
  intro i s t h
  obtain ⟨-, ⟨code, -, rfl⟩ | he⟩ := exec_next h
  · exact ⟨[], Nat.zero_le _, (List.append_nil _).symm, rfl⟩
  · obtain ⟨ts, hts, hc | ⟨before, last, rest, rfl, hb⟩⟩ := effect_outcome he
    · exact ⟨ts, hts.length, hc.emitted⟩
    · have hle := hts.length
      refine ⟨before ++ [last], ?_, hb.emitted⟩
      simp only [List.length_append, List.length_cons] at hle ⊢
      simp only [List.length_nil]
      omega

/-! ## Writers of registers -/

/-- The writers of each register of a slot (10_state R28 to R34). -/
theorem SlotChange.writers {i : Instr} {s : State} {k : SlotId} {v : Slot} (h : SlotChange i s k v) :
    (v.phase ≠ (s.slot k).phase → ∃ mn dir, i = .advance mn dir) ∧
    (v.pos ≠ (s.slot k).pos → (∃ mn dir, i = .advance mn dir) ∨ ∃ mn p, i = .setPosition mn p) ∧
    (v.nrev ≠ (s.slot k).nrev → ∃ mn steps, i = .claim mn steps) ∧
    (v.claimed ≠ (s.slot k).claimed → (∃ mn steps, i = .claim mn steps) ∧ v.claimed = true) ∧
    ((v.target ≠ (s.slot k).target ∨ v.tgtW ≠ (s.slot k).tgtW) → ∃ mn p, i = .setTarget mn p) ∧
    ((v.speed ≠ (s.slot k).speed ∨ v.spdW ≠ (s.slot k).spdW) → ∃ mn rpm, i = .setSpeed mn rpm) := by
  obtain rfl | ⟨mn, steps, rfl, -, -, -, rfl⟩ | ⟨mn, dir, rfl, -, rfl⟩ | ⟨mn, p, rfl, -, rfl⟩ |
    ⟨mn, p, rfl, -, -, rfl⟩ | ⟨mn, rpm, rfl, -, -, rfl⟩ := h
  all_goals simp [moveSlot]

/-- INIT_DONE is written by INIT alone, and FCMD by a fault alone (10_state R24, R42). -/
theorem Effect.writers_status {i : Instr} {s t : State} (he : Effect i s t) :
    (t.initDone ≠ s.initDone → i.isInit = true ∧ t.initDone = true) ∧ (t.fcmd ≠ s.fcmd → t.faulted = true) := by
  obtain ⟨ts, -, hc | ⟨before, last, rest, -, hb⟩⟩ := effect_outcome he
  · rw [hc.initDone, hc.fcmd]
    cases i.isInit <;> simp
  · obtain ⟨hfaulted, -, -, hinit, -⟩ := hb.raised
    exact ⟨fun hne => absurd hinit hne, fun _ => hfaulted⟩

/-- Settles O40: a fault of the checks changes no slot and no INIT_DONE; an effect changes a slot as `SlotChange`. -/
theorem onlyWriters : Obligations.OnlyWriters := by
  unfold Obligations.OnlyWriters
  intro i s t k h
  obtain ⟨-, ⟨code, -, rfl⟩ | he⟩ := exec_next h
  · simp
  · obtain ⟨h1, h2, h3, h4, h5, h6⟩ := (effect_slot he k).writers
    exact ⟨h1, h2, h3, h4, h5, h6, he.writers_status⟩

end Sys2Proof.Machine
end

section
/-! What the host reads (10_state R24 to R26, R42). -/

namespace Sys2Proof.Machine

/-- The bits of STATUS as the host reads them. -/
theorem getLsbD_statusRead (s : State) (n : Nat) :
    (s.hostRead .status).getLsbD n = (s.status.getLsbD n && decide (n = 0 ∨ n = 1 ∨ 4 ≤ n ∧ n ≤ 7)) := by
  have low : ∀ (v : BitVec 8), ∀ n < 8,
      (statusOf (v.extractLsb' 4 4) 0 (v.getLsbD 1) (v.getLsbD 0)).getLsbD n =
        (v.getLsbD n && decide (n = 0 ∨ n = 1 ∨ 4 ≤ n ∧ n ≤ 7)) := by decide
  by_cases hn : n < 8
  · have hn32 : n < 32 := by omega
    rw [State.hostRead, zext32, BitVec.getLsbD_setWidth, decide_eq_true hn32, Bool.true_and]
    exact low s.status n hn
  · simp [State.hostRead, zext32, BitVec.getLsbD_of_ge _ n (Nat.not_lt.1 hn)]

/-- STATUS as a number, by its fields. -/
theorem toNat_hostRead_status (s : State) : (s.hostRead .status).toNat =
    16 * s.fcode.toNat + 2 * s.faulted.toNat + s.initDone.toNat := by
  have h : ∀ (code : BitVec 4) (f d : Bool), (statusOf code 0 f d).toNat = 16 * code.toNat + 2 * f.toNat + d.toNat := by
    decide
  rw [← h, State.hostRead, zext32, BitVec.toNat_setWidth, Nat.mod_eq_of_lt (Nat.lt_trans (BitVec.isLt _) (by decide))]
  rfl

/-- STATUS after a command: INIT_DONE alone if it completed, which needs INIT to have run (60_exceptions R145). -/
theorem completed_or_raisedFault {i : Instr} {s t : State} (h : exec i s = .next t) :
    (t.faulted = false ∧ t.fcode = s.fcode ∧ t.initDone = true) ∨ ∃ code, RaisedFault code (encode i) s t := by
  obtain ⟨hf, ⟨code, -, rfl⟩ | he⟩ := exec_next h
  · exact .inr ⟨code, raisedFault_raiseFault code _ s⟩
  · obtain ⟨ts, hts, hc | ⟨before, last, rest, -, hb⟩⟩ := effect_outcome he
    · exact .inl ⟨hc.faulted.trans hf, hc.fcode, hc.initDone_eq_true hts⟩
    · exact .inr ⟨.bus, hb.raised⟩

/-- Settles O9: STATUS by its bits; a read is settled with the registers in place; and STATUS after a command by its
fields, a completed one having left FCODE at 0. -/
theorem hostReads : Obligations.HostReads := by
  unfold Obligations.HostReads
  refine ⟨fun s => ⟨getLsbD_statusRead s, rfl, rfl⟩, ?_, ?_⟩
  · intro s r r' rest h
    refine ⟨_, readHasNoEffect s r rest h, ?_⟩
    cases r' <;> rfl
  · intro i s t hinv h
    obtain ⟨-, hclean, -⟩ := hinv
    obtain ⟨ht, hcode, hd⟩ | ⟨code, ht, hcode, hw, hd, -, hresp, -⟩ := completed_or_raisedFault h
    · refine ⟨fun _ => BitVec.eq_of_toNat_eq ?_, fun hf => absurd hf (by simp [ht])⟩
      rw [toNat_hostRead_status, ht, hcode, hd, (hclean (exec_next h).1).1]
      rfl
    · refine ⟨fun hf => absurd ht (by simp [hf]), fun _ => ⟨code, ?_, hw, hresp⟩⟩
      rw [toNat_hostRead_status, ht, hcode, hd]
      cases s.initDone <;> rfl

end Sys2Proof.Machine
end

section
/-! The induction step of every invariant: what a step does, it does by a reset, a fault of the checks or the effect of
a command. -/

namespace Sys2Proof.Machine

/-- An invariant that does not read the pending inputs is kept by a step if reset, faults and effects keep it. -/
theorem step_keeps {P : State → Prop} (inputs : ∀ s rest, P s → P { s with inputs := rest })
    (reset : ∀ s, P s → P (applyReset s))
    (fault : ∀ code w s, code ≠ .bus → s.faulted = false → P s → P (raiseFault code w s))
    (effect : ∀ i s t, s.faulted = false → Effect i s t → P s → P t)
    {s t : State} (h : step s = .next t) (hs : P s) : P t := by
  obtain ⟨rest, rfl⟩ | ⟨rest, rfl⟩ | ⟨rest, w, hf, rfl⟩ | ⟨rest, w, i, -, hex⟩ := step_next h
  · exact inputs s rest hs
  · exact reset _ (inputs s rest hs)
  · exact fault .illegal w _ (by decide) hf (inputs s rest hs)
  · obtain ⟨hf, ⟨code, hne, rfl⟩ | he⟩ := exec_next hex
    · exact fault code (encode i) _ hne hf (inputs s rest hs)
    · exact effect i _ t hf he (inputs s rest hs)

end Sys2Proof.Machine
end

section
/-! The invariant of the slots and of POS (10_state R30 to R32, 41_motor_driver R124): the values a command can leave in
a slot's registers keep the bounds. -/

namespace Sys2Proof.Machine

/-! ## One slot -/

theorem slotInv_reset (c : Config) : SlotInv c Slot.reset :=
  ⟨by have := m4_cases c; simp [Slot.reset]; omega, fun _ => ⟨rfl, rfl, rfl, rfl, rfl⟩, nofun, nofun⟩

/-- A revolution length that CLAIM does not refuse is a legal one (41_motor_driver R106). -/
theorem legalRevolution_of_claim {c : Config} {steps : Imm} (hb : badRevolution c steps = false) (v : Slot) :
    LegalRevolution c { v with claimed := true, nrev := BitVec.ofNat 17 (steps.toNat * c.m) } := by
  rw [Bool.eq_false_iff, ne_eq, badRevolution_iff, not_or, Nat.not_lt] at hb
  obtain ⟨h0, hle⟩ := hb
  have hn := toNat_revolution hle
  exact ⟨steps.toNat, Nat.pos_of_ne_zero h0, hn, hn.trans_le hle⟩

theorem speedInterval_le {nrev : BitVec 17} {rpm : Imm} (hn : 0 < nrev.toNat) (h0 : rpm ≠ 0) :
    (speedInterval nrev rpm).toNat ≤ 60000000 := by
  have hrpm : 0 < rpm.toNat := Nat.pos_of_ne_zero (fun h => h0 (BitVec.eq_of_toNat_eq h))
  rw [speedInterval_toNat (Nat.mul_pos hn hrpm)]
  exact Nat.div_le_self _ _

/-- Every value a command can leave in a slot's registers keeps the slot's bounds. -/
theorem SlotChange.slotInv {i : Instr} {s : State} {k : SlotId} {v : Slot} (h : SlotChange i s k v)
    (hs : SlotInv s.cfg (s.slot k)) : SlotInv s.cfg v := by
  have hinv := hs
  obtain ⟨hphase, -, hrev, hspeed⟩ := hs
  obtain rfl | ⟨mn, steps, -, -, -, hb, rfl⟩ | ⟨mn, dir, -, ⟨-, hc⟩, rfl⟩ | ⟨mn, p, -, ⟨-, hc⟩, rfl⟩ |
    ⟨mn, p, -, ⟨-, hc⟩, -, rfl⟩ | ⟨mn, rpm, -, ⟨-, hc⟩, h0, rfl⟩ := h
  · exact hinv
  · exact ⟨hphase, nofun, fun _ => legalRevolution_of_claim hb _, hspeed⟩
  · exact ⟨moveSlot_phase_lt _ _ _, fun hf => absurd hc (Bool.eq_false_iff.1 hf), hrev, hspeed⟩
  · exact ⟨hphase, fun hf => absurd hc (Bool.eq_false_iff.1 hf), hrev, hspeed⟩
  · exact ⟨hphase, fun hf => absurd hc (Bool.eq_false_iff.1 hf), hrev, hspeed⟩
  · exact ⟨hphase, fun hf => absurd hc (Bool.eq_false_iff.1 hf), hrev,
      fun _ => speedInterval_le (legalRevolution_bounds (hrev hc)).1 h0⟩

/-! ## POS -/

/-- POS of one slot within its revolution (10_state R32). -/
def PosBound (v : Slot) : Prop := v.claimed = true → v.pos.toNat < v.nrev.toNat

/-- Every value a command can leave in a slot's registers keeps POS within NREV, but for a re-claim of slot 0. -/
theorem SlotChange.posBound {i : Instr} {s : State} {k : SlotId} {v : Slot} (h : SlotChange i s k v)
    (hr : s.cfg.slot0Rearm = false ∨ k = .slot1) (hs : SlotInv s.cfg (s.slot k)) (hp : PosBound (s.slot k)) :
    PosBound v := by
  obtain ⟨-, hfree, hrev, -⟩ := hs
  obtain rfl | ⟨mn, steps, -, -, hfirst, hb, rfl⟩ | ⟨mn, dir, -, ⟨-, hc⟩, rfl⟩ | ⟨mn, p, -, ⟨-, hc⟩, rfl⟩ |
    ⟨mn, p, -, ⟨-, hc⟩, hlt, rfl⟩ | ⟨mn, rpm, -, ⟨-, hc⟩, h0, rfl⟩ := h
  · exact hp
  · have hc : (s.slot k).claimed = false := by
      obtain hc | ⟨hrearm, rfl⟩ := hfirst
      · exact hc
      · simp [hrearm] at hr
    obtain ⟨-, -, hpos, -⟩ := hfree hc
    intro _
    simpa [hpos] using (legalRevolution_bounds (legalRevolution_of_claim hb (s.slot k))).1
  · obtain ⟨h0, hle⟩ := legalRevolution_bounds (hrev hc)
    intro _
    rw [moveSlot_pos s.cfg dir _ h0 hle]
    exact advanced_lt _ _ h0
  · exact hp
  · exact fun _ => hlt
  · exact hp

/-! ## Both slots -/

/-- The bounds of both slots and of POS, slot by slot. -/
def SlotsInv (s : State) : Prop :=
  (∀ k, SlotInv s.cfg (s.slot k)) ∧ PosInv s

theorem slotsInv_iff (s : State) :
    SlotsInv s ↔ SlotInv s.cfg s.slot0 ∧ SlotInv s.cfg s.slot1 ∧ PosInv s :=
  ⟨fun ⟨h, hp⟩ => ⟨h .slot0, h .slot1, hp⟩, fun ⟨h0, h1, hp⟩ => ⟨fun k => by cases k; exacts [h0, h1], hp⟩⟩

theorem slotsInv_of_reset {s : State} (h : ∀ k, s.slot k = Slot.reset) : SlotsInv s :=
  ⟨fun k => h k ▸ slotInv_reset s.cfg, fun k _ hc => by rw [h k] at hc; cases hc⟩

/-- Every effect keeps the bounds of the slots. -/
theorem Effect.slotsInv {i : Instr} {s t : State} (he : Effect i s t) (hs : SlotsInv s) : SlotsInv t := by
  obtain ⟨hinv, hpos⟩ := hs
  refine ⟨fun k => ?_, fun k hr => ?_⟩
  · rw [effect_cfg he]
    exact (effect_slot he k).slotInv (hinv k)
  · rw [effect_cfg he] at hr
    exact (effect_slot he k).posBound hr (hinv k) (hpos k hr)

/-- Settles O49: a reset gives both slots their reset values, a fault changes no slot, and an effect changes each as
`SlotChange`. -/
theorem slotsInvKept : Obligations.SlotsInvKept := by
  unfold Obligations.SlotsInvKept
  intro s t _ h0 h1 hp h
  refine (slotsInv_iff t).1 (step_keeps ?_ ?_ ?_ ?_ h ((slotsInv_iff s).2 ⟨h0, h1, hp⟩))
  · exact fun _ _ hs => hs
  · exact fun s _ => slotsInv_of_reset (slot_applyReset s)
  · exact fun _ _ _ _ _ hs => hs
  · exact fun _ _ _ _ he hs => he.slotsInv hs

end Sys2Proof.Machine
end

section
/-! The invariants of STATUS, of the channel shadow and of OUT (10_state R24, R38, R42; 20_memory R52). -/

namespace Sys2Proof.Machine

/-! ## STATUS -/

theorem faultCode_bounds (code : FaultCode) : 1 ≤ code.bits.toNat ∧ code.bits.toNat ≤ 9 := by
  cases code <;> decide

theorem fcode_zero_ne_bus : (0 : BitVec 4) ≠ FaultCode.bus.bits := by decide

/-- FCODE does not read BUS at an engine that runs. -/
theorem StatusInv.fcode_ne_bus {s : State} (h : StatusInv s) (hf : s.faulted = false) :
    s.fcode ≠ FaultCode.bus.bits := by
  obtain ⟨-, hclean, -⟩ := h
  rw [(hclean hf).1]
  exact fcode_zero_ne_bus

theorem statusInv_applyReset (s : State) : StatusInv (applyReset s) := by
  simp [StatusInv, Slot.reset]

/-- A recorded fault that claims no slot keeps the invariant of STATUS. -/
theorem RaisedFault.statusInv {code : FaultCode} {w : CmdWord} {s t : State} (h : RaisedFault code w s t)
    (hs : StatusInv s) (hc : t.initDone = false → ∀ k, (t.slot k).claimed = (s.slot k).claimed) : StatusInv t := by
  obtain ⟨hfaulted, hcode, -, hinit, hres, -⟩ := h
  obtain ⟨hres0, -, -, hfree⟩ := hs
  refine ⟨hres.trans hres0, fun hf => absurd hfaulted (Bool.eq_false_iff.1 hf), fun _ => ?_, fun hd => ?_⟩
  · rw [hcode]
    exact faultCode_bounds code
  · obtain ⟨h0, h1⟩ := hfree (hinit ▸ hd)
    exact ⟨(hc hd .slot0).trans h0, (hc hd .slot1).trans h1⟩

/-- INIT_DONE, once 1, stays 1 in an effect. -/
theorem Effect.initDone_of {i : Instr} {s t : State} (he : Effect i s t) (hd : s.initDone = true) :
    t.initDone = true := by
  by_contra hne
  exact hne (he.writers_status.1 (fun h => hne (h.trans hd))).2

/-- Only INIT runs before INIT, and it claims no slot. -/
theorem Effect.claimed_before_init {i : Instr} {s t : State} (he : Effect i s t) (hd : t.initDone = false)
    (k : SlotId) : (t.slot k).claimed = (s.slot k).claimed := by
  obtain ⟨-, -, -, hclaimed, -⟩ := (effect_slot he k).writers
  by_contra hne
  obtain ⟨⟨mn, steps, rfl⟩, -⟩ := hclaimed hne
  obtain ⟨ts, hts, -⟩ := effect_outcome he
  exact absurd (he.initDone_of (hts.ofOther rfl)) (Bool.eq_false_iff.1 hd)

theorem Effect.statusInv {i : Instr} {s t : State} (he : Effect i s t) (hf : s.faulted = false) (hs : StatusInv s) :
    StatusInv t := by
  have hfree := he.claimed_before_init
  obtain ⟨ts, hts, hc | ⟨before, last, rest, -, hb⟩⟩ := effect_outcome he
  · obtain ⟨hres, hclean, -, hnone⟩ := hs
    obtain ⟨hcode, hfcmd⟩ := hclean hf
    refine ⟨hc.statusReserved.trans hres, fun _ => ⟨hc.fcode.trans hcode, hc.fcmd.trans hfcmd⟩, fun ht => ?_,
      fun hd => ?_⟩
    · rw [hc.faulted, hf] at ht
      cases ht
    · have hd' : s.initDone = false := Bool.eq_false_iff.2 (fun h => Bool.eq_false_iff.1 hd (he.initDone_of h))
      obtain ⟨h0, h1⟩ := hnone hd'
      exact ⟨(hfree hd .slot0).trans h0, (hfree hd .slot1).trans h1⟩
  · exact hb.raised.statusInv hs hfree

theorem statusInv_raiseFault {s : State} (code : FaultCode) (w : CmdWord) (hs : StatusInv s) :
    StatusInv (raiseFault code w s) :=
  (raisedFault_raiseFault code w s).statusInv hs (fun _ k => by rw [slot_raiseFault])

/-- Settles O48: a fault and an effect both leave a code only with a fault, and INIT claims no slot. -/
theorem statusInvKept : Obligations.StatusInvKept := by
  unfold Obligations.StatusInvKept
  intro s t hs h
  refine step_keeps ?_ ?_ ?_ ?_ h hs
  · exact fun _ _ hs => hs
  · exact fun s _ => statusInv_applyReset s
  · exact fun code w _ _ _ hs => statusInv_raiseFault code w hs
  · exact fun _ _ _ hf he hs => he.statusInv hf hs

/-! ## The channel shadow -/

theorem shadowInv_applyReset (s : State) : ShadowInv (applyReset s) :=
  ⟨fun _ => rfl, fun h => absurd (fcode_applyReset s ▸ h) fcode_zero_ne_bus⟩

theorem ShadowInv.chan_eq {s : State} (h : ShadowInv s) (hst : StatusInv s) (hf : s.faulted = false) :
    s.chan = replay s.out := h.1 (hst.fcode_ne_bus hf)

/-- The replay of a longer stream goes on from the replay so far. -/
theorem replay_append (ts us : List Transaction) : replay (ts ++ us) = acceptAll (replay ts) us :=
  acceptAll_append _ ts us

theorem shadowInv_raiseFault {s : State} {code : FaultCode} (w : CmdWord) (hne : code ≠ .bus)
    (hc : s.chan = replay s.out) : ShadowInv (raiseFault code w s) :=
  ⟨fun _ => hc, fun h => absurd (fcode_raiseFault code w s ▸ h) (fcode_ne_bus hne)⟩

/-- An effect replays its stream on the shadow, up to the transaction of a bus fault. -/
theorem Effect.shadowInv {i : Instr} {s t : State} (he : Effect i s t) (hcode : s.fcode ≠ FaultCode.bus.bits)
    (hc : s.chan = replay s.out) : ShadowInv t := by
  obtain ⟨ts, -, hdone | ⟨before, last, rest, -, hb⟩⟩ := effect_outcome he
  · refine ⟨fun _ => ?_, fun h => absurd (hdone.fcode ▸ h) hcode⟩
    rw [hdone.chan, hdone.emitted.1, replay_append, hc]
  · obtain ⟨-, hbus, -⟩ := hb.raised
    refine ⟨fun h => absurd hbus h, fun _ => ⟨s.out ++ before, last, ?_, ?_⟩⟩
    · rw [hb.emitted.1, List.append_assoc]
    · rw [hb.chan, replay_append, hc]

/-- Settles O50: while the engine runs the shadow is the replay of OUT; a reset empties both (log 7), a fault of the
checks touches neither, and an effect extends both by one stream. -/
theorem shadowInvKept : Obligations.ShadowInvKept := by
  unfold Obligations.ShadowInvKept
  intro s t hst hs h
  refine (step_keeps (P := fun s => StatusInv s ∧ ShadowInv s) ?_ ?_ ?_ ?_ h ⟨hst, hs⟩).2
  · exact fun _ _ hs => hs
  · exact fun s _ => ⟨statusInv_applyReset s, shadowInv_applyReset s⟩
  · exact fun code w s hne hf ⟨hst, hs⟩ =>
      ⟨statusInv_raiseFault code w hst, shadowInv_raiseFault w hne (hs.chan_eq hst hf)⟩
  · exact fun i s t hf he ⟨hst, hs⟩ =>
      ⟨he.statusInv hf hst, he.shadowInv (hst.fcode_ne_bus hf) (hs.chan_eq hst hf)⟩

/-! ## OUT -/

theorem streamInv_of_out_nil {s : State} (hout : s.out = []) (hd : s.initDone = false) : StreamInv s :=
  ⟨by simp [hout], fun _ _ => hout, fun h => by simp [hd] at h⟩

theorem streamInv_raiseFault {s : State} (code : FaultCode) (w : CmdWord) (hcode : s.fcode ≠ FaultCode.bus.bits)
    (hs : StreamInv s) : StreamInv (raiseFault code w s) := by
  obtain ⟨hlegal, hempty, hbegin⟩ := hs
  refine ⟨hlegal, fun hd _ => hempty ?_ hcode, fun hd => hbegin ?_⟩
  all_goals rwa [initDone_raiseFault] at hd

/-- A stream of legal transactions after OUT keeps OUT's beginning; INIT's own is the beginning. -/
theorem Effect.streamInv {i : Instr} {s t : State} (he : Effect i s t) (hcode : s.fcode ≠ FaultCode.bus.bits)
    (hs : StreamInv s) : StreamInv t := by
  obtain ⟨hlegal, hempty, hbegin⟩ := hs
  have legal_append : ∀ {us}, (∀ e ∈ us, LegalTransaction e) → ∀ e ∈ s.out ++ us, LegalTransaction e :=
    fun hus e h => (List.mem_append.1 h).elim (hlegal e) (hus e)
  obtain ⟨ts, hts, hdone | ⟨before, last, rest, rfl, hb⟩⟩ := effect_outcome he
  · have hd := hdone.initDone_eq_true hts
    refine ⟨hdone.emitted.1 ▸ legal_append hts.legal, fun hd' => absurd hd (Bool.eq_false_iff.1 hd'), fun _ => ?_⟩
    rw [hdone.emitted.1, hdone.outside.1]
    cases hi : i.isInit
    · obtain ⟨f, rest, hf, hout⟩ := hbegin (hts.ofOther hi)
      exact ⟨f, rest ++ ts, hf, by rw [hout, List.append_assoc]⟩
    · obtain ⟨hd, f, hf, rfl⟩ := hts.ofInit hi
      exact ⟨f, [], hf, by rw [hempty hd hcode, List.nil_append, List.append_nil]⟩
  · obtain ⟨-, hbus, -, hinit, -, -, -, hcfg, -⟩ := hb.raised
    have hpart : ∀ e ∈ before ++ [last], LegalTransaction e := fun e h =>
      hts.legal e (by simp only [List.mem_append, List.mem_cons, List.not_mem_nil, or_false] at h ⊢; tauto)
    refine ⟨hb.emitted.1 ▸ legal_append hpart, fun _ h => absurd hbus h, fun hd => ?_⟩
    obtain ⟨f, rest, hf, hout⟩ := hbegin (hinit ▸ hd)
    exact ⟨f, rest ++ (before ++ [last]), hf, by rw [hb.emitted.1, hcfg, hout, List.append_assoc]⟩

/-- Settles O51: an effect appends to OUT a stream of legal transactions, INIT's first. -/
theorem streamInvKept : Obligations.StreamInvKept := by
  unfold Obligations.StreamInvKept
  intro s t _ hst hs h
  refine (step_keeps (P := fun s => StatusInv s ∧ StreamInv s) ?_ ?_ ?_ ?_ h ⟨hst, hs⟩).2
  · exact fun _ _ hs => hs
  · exact fun s _ => ⟨statusInv_applyReset s, streamInv_of_out_nil rfl (initDone_applyReset s)⟩
  · exact fun code w s _ hf ⟨hst, hs⟩ =>
      ⟨statusInv_raiseFault code w hst, streamInv_raiseFault code w (hst.fcode_ne_bus hf) hs⟩
  · exact fun i s t hf he ⟨hst, hs⟩ => ⟨he.statusInv hf hst, he.streamInv (hst.fcode_ne_bus hf) hs⟩

/-! ## Reset -/

/-- Settles O47: the state after reset is one that a reset leaves, and a reset establishes every invariant. -/
theorem resetMeetsInv : Obligations.ResetMeetsInv := by
  unfold Obligations.ResetMeetsInv
  intro c hw
  rw [← applyReset_resetWith c]
  obtain ⟨h0, h1, hp⟩ := (slotsInv_iff _).1 (slotsInv_of_reset (slot_applyReset (State.resetWith c)))
  exact ⟨hw, statusInv_applyReset _, h0, h1, hp, shadowInv_applyReset _,
    streamInv_of_out_nil rfl (initDone_applyReset _)⟩

end Sys2Proof.Machine
end

section
/-! The halted engine (60_exceptions R143, R144) and where a step stops (20_memory R49). -/

namespace Sys2Proof.Machine

/-! ## Commands -/

theorem exec_halted (i : Instr) {s : State} (hf : s.faulted = true) : exec i s = .fault .halted := by
  cases i with
  | reserved0 | reservedD | reservedE | reservedF => exact illegalCommand_halted hf
  | _ => exact runCommand_halted hf

/-- At a running engine a command ends as its effect does, or with a fault of its checks, which is a next state. -/
theorem runCommand_running {α : Type} {w : CmdWord} {s : State} {checks : Except FaultCode α} {effect : α → Outcome}
    {p : Outcome → Prop} (hf : s.faulted = false) (hnext : ∀ t, p (.next t)) (he : ∀ a, p (effect a)) :
    p (runCommand w s checks effect) := by
  obtain ⟨hh, -⟩ | ⟨-, code, -, e⟩ | ⟨-, a, -, e⟩ := runCommand_cases w s checks effect
  · exact absurd hh (Bool.eq_false_iff.1 hf)
  · exact e ▸ hnext _
  · exact e ▸ he a

/-- How a command may end at an engine that runs: in a next state, or, for an illegal instance, outside the table. -/
def EndsRunning (c : Config) (o : Outcome) : Prop :=
  (∃ t, o = .next t) ∨ (c.wf = false ∧ o = .refused .tableIndex)

theorem endsRunning_next (c : Config) (t : State) : EndsRunning c (.next t) := .inl ⟨t, rfl⟩

/-- ADVANCE finds an entry at both of its indices in every legal instance. -/
theorem wf_eq_false_of_excite {c : Config} {dir : Direction} {v : Slot}
    (h : excite c (moveSlot c dir v).phase.toNat = none) : c.wf = false := by
  by_contra hw
  obtain ⟨dA, dB, -, -, he⟩ := excite_eq_some (Bool.eq_true_of_not_eq_false hw) (moveSlot_phase_lt c dir v)
  simp [h] at he

theorem exec_running (i : Instr) {s : State} (hf : s.faulted = false) : EndsRunning s.cfg (exec i s) := by
  have hnext := endsRunning_next s.cfg
  cases i with
  | claim mn steps => exact runCommand_running hf hnext fun a => by cases a <;> exact hnext _
  | advance mn dir =>
    refine runCommand_running hf hnext fun k => ?_
    cases he : excite s.cfg (moveSlot s.cfg dir (s.slot k)).phase.toNat with
    | none => simpa only [he] using .inr ⟨wf_eq_false_of_excite he, rfl⟩
    | some e => simpa only [he] using hnext _
  | reserved0 | reservedD | reservedE | reservedF => exact .inl ⟨_, illegalCommand_next hf⟩
  | _ => exact runCommand_running hf hnext fun _ => hnext _

/-! ## What the host port serves -/

/-- What is served to a halted engine: a read or nothing, the first pending reset, or a command word that is stuck. -/
theorem serve_halted {s : State} (hf : s.faulted = true) :
    (∃ rest, serve s = .settled { s with inputs := rest }) ∨
    (∃ later, afterReset s.inputs = some later ∧ serve s = .settled (applyReset { s with inputs := later })) ∨
    (serve s = .stuck ∧ ∃ w rest, s.inputs = .command w :: rest) := by
  cases hin : s.inputs with
  | nil => exact .inl ⟨s.inputs, serve_of_no_inputs hin⟩
  | cons x rest =>
    cases x with
    | read r => exact .inl ⟨rest, serve_of_read hin⟩
    | reset => exact .inr (.inl ⟨rest, rfl, serve_of_reset hin⟩)
    | command w =>
      cases hl : afterReset rest with
      | none => exact .inr (.inr ⟨by simp [serve, hin, hf, hl], w, rest, rfl⟩)
      | some later => exact .inr (.inl ⟨later, hl, by simp [serve, hin, hf, hl]⟩)

theorem step_of_serve_stuck {s : State} (h : serve s = .stuck) : step s = .fault .halted := by
  simp only [step, h]

/-- A running engine is stuck at nothing, and a word it is served ends as a command. -/
theorem step_running {s : State} (hf : s.faulted = false) : EndsRunning s.cfg (step s) := by
  cases hin : s.inputs with
  | nil => exact step_of_serve_settled (serve_of_no_inputs hin) ▸ endsRunning_next s.cfg _
  | cons x rest =>
    cases x with
    | read r => exact readHasNoEffect s r rest hin ▸ endsRunning_next s.cfg _
    | reset => exact step_of_serve_settled (serve_of_reset hin) ▸ endsRunning_next s.cfg _
    | command w =>
      cases hd : decode w with
      | ok i => exact step_of_decode_ok hin hf hd ▸ exec_running (s := { s with inputs := rest }) i hf
      | error e => exact (step_of_decode_error hin hf hd).trans (illegalCommand_next hf) ▸ endsRunning_next s.cfg _

theorem step_halted {s : State} (hf : s.faulted = true) :
    (∃ rest, step s = .next { s with inputs := rest }) ∨
    (∃ later, afterReset s.inputs = some later ∧ step s = .next (applyReset { s with inputs := later })) ∨
    (step s = .fault .halted ∧ ∃ w rest, s.inputs = .command w :: rest) := by
  obtain ⟨rest, hs⟩ | ⟨later, hl, hs⟩ | ⟨hs, hin⟩ := serve_halted hf
  · exact .inl ⟨rest, step_of_serve_settled hs⟩
  · exact .inr (.inl ⟨later, hl, step_of_serve_settled hs⟩)
  · exact .inr (.inr ⟨step_of_serve_stuck hs, hin⟩)

/-! ## The statements -/

/-- Settles O46: a running engine stops only outside the table, which no legal instance reaches; a halted one at a
command word. -/
theorem onlyHaltedStops : Obligations.OnlyHaltedStops := by
  unfold Obligations.OnlyHaltedStops
  refine ⟨fun s r hw h => ?_, fun s f h => ?_⟩
  · cases hf : s.faulted
    · obtain ⟨t, e⟩ | ⟨hbad, -⟩ := step_running hf
      · cases h.symm.trans e
      · exact absurd hw (Bool.eq_false_iff.1 hbad)
    · obtain ⟨rest, e⟩ | ⟨later, -, e⟩ | ⟨e, -⟩ := step_halted hf <;> cases h.symm.trans e
  · cases hf : s.faulted
    · obtain ⟨t, e⟩ | ⟨-, e⟩ := step_running hf <;> cases h.symm.trans e
    · obtain ⟨rest, e⟩ | ⟨later, -, e⟩ | ⟨e, hin⟩ := step_halted hf <;> cases h.symm.trans e
      exact ⟨rfl, rfl, hin⟩

/-- Settles O13: of what a halted engine can be served, only a reset clears FAULTED. -/
theorem onlyResetEndsHalt : Obligations.OnlyResetEndsHalt := by
  unfold Obligations.OnlyResetEndsHalt
  refine ⟨fun i s hf => exec_halted i hf, fun s t hf h ht => ?_⟩
  obtain ⟨rest, e⟩ | ⟨later, hl, e⟩ | ⟨e, -⟩ := step_halted hf <;> cases h.symm.trans e
  · exact absurd hf (Bool.eq_false_iff.1 ht)
  · exact ⟨later, hl, rfl⟩

theorem afterReset_eq_none {inputs : List HostInput} (h : ∀ x ∈ inputs, x ≠ .reset) : afterReset inputs = none := by
  induction inputs with
  | nil => rfl
  | cons x rest ih =>
    have hrest := ih fun y hy => h y (List.mem_cons_of_mem x hy)
    cases x with
    | reset => exact absurd rfl (h .reset List.mem_cons_self)
    | command w => exact hrest
    | read r => exact hrest

/-- Settles O14: with no reset pending the word is served as stuck. -/
theorem haltedIsStuck : Obligations.HaltedIsStuck := by
  unfold Obligations.HaltedIsStuck
  intro s w rest hf hin hno
  exact step_of_serve_stuck (by simp [serve, hin, hf, afterReset_eq_none hno])

/-- Settles O7, by `step_of_decode_ok`. -/
theorem stepRunsDecoded : Obligations.StepRunsDecoded := fun _ _ _ _ => step_of_decode_ok

/-- Settles O10: with nothing pending the state is served as settled. -/
theorem waitsForCommand : Obligations.WaitsForCommand := fun _ h => step_of_serve_settled (serve_of_no_inputs h)

end Sys2Proof.Machine
end

section
/-! The checks before a command's own (60_exceptions R141, R145): ILLEGAL, then UNINIT and REINIT. -/

namespace Sys2Proof.Machine

theorem slotChecks_uninit (mn : MotorNumber) {s : State} (hd : s.initDone = false) :
    slotChecks mn s = .error .uninit := by
  simp [slotChecks, initialised_error hd]

theorem claimChecks_uninit (mn : MotorNumber) (steps : Imm) {s : State} (hd : s.initDone = false) :
    claimChecks mn steps s = .error .uninit := by
  simp [claimChecks, initialised_error hd]

/-- Before INIT every other command of the table raises UNINIT before any check of its own. -/
theorem raisesPrecisely_uninit {i : Instr} {s : State} (hf : s.faulted = false) (hd : s.initDone = false)
    (hi : i.isInit = false) (hr : i.isReserved = false) : RaisesPrecisely .uninit i s := by
  cases i with
  | init f => cases hi
  | reserved0 | reservedD | reservedE | reservedF => cases hr
  | setDuty | setRail => exact raisesPrecisely_of (runCommand_error hf (initialised_error hd))
  | claim mn steps => exact raisesPrecisely_of (runCommand_error hf (claimChecks_uninit mn steps hd))
  | _ => exact raisesPrecisely_of_slotChecks rfl hf (slotChecks_uninit _ hd)

theorem raisesPrecisely_illegal {i : Instr} {s : State} (hf : s.faulted = false) (hr : i.isReserved = true) :
    RaisesPrecisely .illegal i s :=
  raisesPrecisely_of ((exec_of_isReserved hr s).trans (illegalCommand_next hf))

/-- Settles O15: by whether the command is reserved, INIT, or any other. -/
theorem initialisationFaults : Obligations.InitialisationFaults := by
  unfold Obligations.InitialisationFaults
  exact ⟨fun _ _ => raisesPrecisely_uninit, fun f _ hf hd => init_raisesPrecisely hf (initChecks_reinit f hd),
    fun _ _ => raisesPrecisely_illegal⟩

/-- Settles O32: the four codes are the reserved commands. -/
theorem reservedRaisesIllegal : Obligations.ReservedRaisesIllegal := fun _ _ hf =>
  ⟨raisesPrecisely_illegal hf rfl, raisesPrecisely_illegal hf rfl, raisesPrecisely_illegal hf rfl,
    raisesPrecisely_illegal hf rfl⟩

end Sys2Proof.Machine
end

section
/-! Closed facts: the rail-high pair (40_port R90) and the reference instances (20_memory R48, R56). -/

namespace Sys2Proof.Machine

/-- Settles O20: both are the saturated pair, and the maximum duty's is (0, 4095). -/
theorem railPairIsSaturation : Obligations.RailPairIsSaturation := by
  unfold Obligations.RailPairIsSaturation
  intro ch v hv
  simp [railTransaction_eq, dutyTransaction_eq, hv]

/-- Settles O55, for the two micro-resolutions. -/
theorem referenceIsLegal : Obligations.ReferenceIsLegal := by
  unfold Obligations.ReferenceIsLegal
  intro m
  cases m <;> decide

end Sys2Proof.Machine
end

section
/-! Slot isolation (10_state R39): every operation commutes with replacing the registers of a slot it does not name. -/

namespace Sys2Proof.Machine

/-! ## The shared operations -/

/-- An outcome with its next state, where it has one, changed by `f`. -/
def mapNext (f : State → State) : Outcome → Outcome
  | .next t => .next (f t)
  | .fault r => .fault r
  | .refused r => .refused r

section
variable (o : SlotId) (v : Slot)

theorem portEmit_setSlot (e : Transaction) (s : State) : portEmit e (s.setSlot o v) = (portEmit e s).setSlot o v := by
  cases o <;> rfl

theorem raiseFault_setSlot (code : FaultCode) (w : CmdWord) (s : State) :
    raiseFault code w (s.setSlot o v) = (raiseFault code w s).setSlot o v := by
  cases o <;> rfl

theorem complete_setSlot (r : BitVec 32) (s : State) : complete r (s.setSlot o v) = (complete r s).setSlot o v := by
  cases o <;> rfl

theorem setInitDone_setSlot (s : State) : (s.setSlot o v).setInitDone = s.setInitDone.setSlot o v := by
  cases o <;> rfl

theorem setSlot_comm {k : SlotId} (h : k ≠ o) (u : Slot) (s : State) :
    (s.setSlot o v).setSlot k u = (s.setSlot k u).setSlot o v := by
  match k, o, h with
  | .slot0, .slot1, _ | .slot1, .slot0, _ => rfl

theorem nextAnswer_setSlot (s : State) : (s.setSlot o v).nextAnswer = s.nextAnswer := by
  rw [State.nextAnswer, setSlot_answers, ← State.nextAnswer]

theorem emitAll_setSlot (ts : List Transaction) (s : State) :
    emitAll ts (s.setSlot o v) = ((emitAll ts s).1.setSlot o v, (emitAll ts s).2) := by
  induction ts generalizing s with
  | nil => rfl
  | cons e ts ih =>
    simp only [emitAll, nextAnswer_setSlot, portEmit_setSlot]
    cases s.nextAnswer
    · exact ih _
    · rfl

theorem transmit_setSlot (w : CmdWord) (ts : List Transaction) {finish : State → State}
    (hfinish : ∀ x, finish (x.setSlot o v) = (finish x).setSlot o v) (s : State) :
    transmit w ts finish (s.setSlot o v) = (transmit w ts finish s).setSlot o v := by
  simp only [transmit, emitAll_setSlot]
  rcases emitAll ts s with ⟨t, _ | _⟩
  · exact hfinish t
  · exact raiseFault_setSlot o v .bus w t

/-- A command commutes with the replacement if its checks do not see it and its effect commutes. -/
theorem runCommand_setSlot {α : Type} {w : CmdWord} {s : State} {checks checks' : Except FaultCode α}
    {effect effect' : α → Outcome} (hc : checks' = checks)
    (he : ∀ a, checks = .ok a → effect' a = mapNext (·.setSlot o v) (effect a)) :
    runCommand w (s.setSlot o v) checks' effect' = mapNext (·.setSlot o v) (runCommand w s checks effect) := by
  subst hc
  simp only [runCommand, faulted_setSlot]
  split
  · rfl
  · cases checks' with
    | error code => exact congrArg Host.Outcome.next (raiseFault_setSlot o v code w s)
    | ok a => exact he a rfl

theorem illegalCommand_setSlot (w : CmdWord) (s : State) :
    illegalCommand w (s.setSlot o v) = mapNext (·.setSlot o v) (illegalCommand w s) :=
  runCommand_setSlot o v rfl nofun

/-! ## The checks -/

theorem initialised_setSlot (s : State) : initialised (s.setSlot o v) = initialised s := by simp [initialised]

theorem initChecks_setSlot (f : Imm) (s : State) : initChecks f (s.setSlot o v) = initChecks f s := by
  simp [initChecks]

end

section
variable {o : SlotId} {v : Slot} {mn : MotorNumber} {s : State} (hmn : slotOf mn ≠ some o)
include hmn

theorem slotChecks_setSlot : slotChecks mn (s.setSlot o v) = slotChecks mn s := by
  unfold slotChecks resolveSlot
  rw [initialised_setSlot]
  cases hk : slotOf mn with
  | none => rfl
  | some k =>
    have hne : k ≠ o := fun h => hmn (h ▸ hk)
    simp only [slot_setSlot_of_ne hne]

theorem claimTarget_setSlot : claimTarget mn (s.setSlot o v) = claimTarget mn s := by
  unfold claimTarget
  cases hk : slotOf mn with
  | none => rfl
  | some k =>
    have hne : k ≠ o := fun h => hmn (h ▸ hk)
    simp only [slot_setSlot_of_ne hne, setSlot_cfg]

theorem claimChecks_setSlot (steps : Imm) : claimChecks mn steps (s.setSlot o v) = claimChecks mn steps s := by
  simp only [claimChecks, initialised_setSlot, claimTarget_setSlot hmn, setSlot_cfg]

theorem ne_of_slotChecks {k : SlotId} (h : slotChecks mn s = .ok k) : k ≠ o := by
  obtain ⟨-, hk, -⟩ := (slotChecks_ok_iff mn s k).1 h
  exact fun e => hmn (e ▸ hk)

/-- A per-slot command, with the check `g` of its own after the slot's resolution. -/
theorem slotCommand_setSlot {w : CmdWord} {checks checks' : Except FaultCode SlotId}
    {g g' : SlotId → Except FaultCode SlotId} {effect effect' : SlotId → Outcome}
    (hc : checks = (slotChecks mn s).bind g) (hc' : checks' = (slotChecks mn (s.setSlot o v)).bind g')
    (hg : ∀ k, k ≠ o → g' k = g k ∧ ∀ j, g k = .ok j → j = k)
    (he : ∀ k, k ≠ o → effect' k = mapNext (·.setSlot o v) (effect k)) :
    runCommand w (s.setSlot o v) checks' effect' = mapNext (·.setSlot o v) (runCommand w s checks effect) := by
  subst hc hc'
  rw [slotChecks_setSlot hmn]
  cases hk : slotChecks mn s with
  | error code => exact runCommand_setSlot o v rfl nofun
  | ok k =>
    have hne := ne_of_slotChecks hmn hk
    obtain ⟨hg', hj⟩ := hg k hne
    exact runCommand_setSlot o v hg' fun j h => he j (hj j h ▸ hne)

/-- A per-slot command whose only check is the slot's resolution. -/
theorem resolvedCommand_setSlot {w : CmdWord} {effect effect' : SlotId → Outcome}
    (he : ∀ k, k ≠ o → effect' k = mapNext (·.setSlot o v) (effect k)) :
    runCommand w (s.setSlot o v) (slotChecks mn (s.setSlot o v)) effect' =
      mapNext (·.setSlot o v) (runCommand w s (slotChecks mn s) effect) :=
  runCommand_setSlot o v (slotChecks_setSlot hmn) fun k hk => he k (ne_of_slotChecks hmn hk)

end

/-- A slot that CLAIM's checks give is the one it names. -/
theorem slotOf_of_claimChecks {mn : MotorNumber} {steps : Imm} {s : State} {k : SlotId}
    (h : claimChecks mn steps s = .ok (some k)) : slotOf mn = some k := by
  cases ht : claimTarget mn s with
  | none => cases hd : initialised s <;> simp [claimChecks, ht, hd] at h
  | some j =>
    cases hd : initialised s <;> cases hb : badRevolution s.cfg steps <;> simp [claimChecks, ht, hd, hb] at h
    exact h ▸ (claimTarget_some ht).1

/-- A check that answers its slot or a fault answers no other slot. -/
theorem slot_of_check {p : Prop} [Decidable p] {code : FaultCode} {k j : SlotId}
    (h : (if p then .error code else .ok k) = Except.ok (ε := FaultCode) j) : j = k := by
  split at h <;> cases h
  rfl

theorem slot_of_check_not {p : Prop} [Decidable p] {code : FaultCode} {k j : SlotId}
    (h : (if p then .ok k else .error code) = Except.ok (ε := FaultCode) j) : j = k := by
  rw [← ite_not] at h
  exact slot_of_check h

/-! ## The effects -/

section
variable (o : SlotId) (v : Slot)

theorem mapNext_transmit (w : CmdWord) (ts : List Transaction) (r : BitVec 32) (s : State) :
    .next (transmit w ts (complete r) (s.setSlot o v)) =
      mapNext (·.setSlot o v) (.next (transmit w ts (complete r) s)) :=
  congrArg Host.Outcome.next (transmit_setSlot o v w ts (complete_setSlot o v r) s)

theorem mapNext_complete (r : BitVec 32) (s : State) :
    .next (complete r (s.setSlot o v)) = mapNext (·.setSlot o v) (.next (complete r s)) :=
  mapNext_transmit o v 0 [] r s

end

/-! ## The commands -/

/-- A command that names another slot, or none, commutes with replacing the registers of slot `o`. -/
theorem exec_setSlot {i : Instr} {o : SlotId} (hi : namedSlot i ≠ some o) (v : Slot) (s : State) :
    exec i (s.setSlot o v) = mapNext (·.setSlot o v) (exec i s) := by
  cases i with
  | reserved0 | reservedD | reservedE | reservedF => exact illegalCommand_setSlot o v _ s
  | init f =>
    refine runCommand_setSlot o v (initChecks_setSlot o v f s) fun _ _ => congrArg Host.Outcome.next ?_
    rw [setSlot_cfg]
    refine transmit_setSlot o v _ _ (fun x => ?_) s
    rw [setInitDone_setSlot, complete_setSlot]
  | setDuty | setRail =>
    exact runCommand_setSlot o v (initialised_setSlot o v s) fun _ _ => mapNext_transmit o v ..
  | claim mn steps =>
    refine runCommand_setSlot o v (claimChecks_setSlot hi steps) fun a ha => ?_
    cases a with
    | none => exact mapNext_complete o v ..
    | some k =>
      have hk : k ≠ o := fun h => hi (h ▸ slotOf_of_claimChecks ha)
      simp only [configureSlot, setSlot_cfg, slot_setSlot_of_ne hk, setSlot_comm o v hk]
      exact mapNext_complete o v ..
  | advance mn dir =>
    refine resolvedCommand_setSlot hi fun k hk => ?_
    simp only [setSlot_cfg, slot_setSlot_of_ne hk, setSlot_comm o v hk]
    cases excite s.cfg (moveSlot s.cfg dir (s.slot k)).phase.toNat with
    | none => rfl
    | some e => exact mapNext_transmit o v ..
  | release mn =>
    refine resolvedCommand_setSlot hi fun k hk => ?_
    rw [setSlot_cfg]
    exact mapNext_transmit o v ..
  | setTarget mn p =>
    refine resolvedCommand_setSlot hi fun k hk => ?_
    rw [slot_setSlot_of_ne hk, setSlot_comm o v hk]
    exact mapNext_complete o v ..
  | getPosition mn =>
    refine resolvedCommand_setSlot hi fun k hk => ?_
    rw [slot_setSlot_of_ne hk]
    exact mapNext_complete o v ..
  | setPosition mn p =>
    refine slotCommand_setSlot hi (setPositionChecks_eq_bind mn p s) (setPositionChecks_eq_bind mn p _)
      (fun k hk => ⟨by rw [slot_setSlot_of_ne hk], fun _ => slot_of_check⟩) fun k hk => ?_
    rw [slot_setSlot_of_ne hk, setSlot_comm o v hk]
    exact mapNext_complete o v ..
  | isAtTarget mn =>
    refine slotCommand_setSlot hi (isAtTargetChecks_eq_bind mn s) (isAtTargetChecks_eq_bind mn _)
      (fun k hk => ⟨by rw [slot_setSlot_of_ne hk], fun _ => slot_of_check_not⟩) fun k hk => ?_
    rw [slot_setSlot_of_ne hk]
    exact mapNext_complete o v ..
  | setSpeed mn rpm =>
    refine slotCommand_setSlot hi (setSpeedChecks_eq_bind mn rpm s) (setSpeedChecks_eq_bind mn rpm _)
      (fun k hk => ⟨rfl, fun _ => slot_of_check⟩) fun k hk => ?_
    rw [slot_setSlot_of_ne hk, setSlot_comm o v hk]
    exact mapNext_complete o v ..
  | getSpeed mn =>
    refine slotCommand_setSlot hi (getSpeedChecks_eq_bind mn s) (getSpeedChecks_eq_bind mn _)
      (fun k hk => ⟨by rw [slot_setSlot_of_ne hk], fun _ => slot_of_check_not⟩) fun k hk => ?_
    rw [slot_setSlot_of_ne hk]
    exact mapNext_complete o v ..

/-- A command leaves the registers of a slot it does not name. -/
theorem exec_slot_of_not_named {i : Instr} {o : SlotId} {s t : State} (hi : namedSlot i ≠ some o)
    (h : exec i s = .next t) : t.slot o = s.slot o := by
  obtain ⟨-, ⟨code, -, rfl⟩ | he⟩ := exec_next h
  · exact slot_raiseFault ..
  · obtain h | ⟨mn, _, rfl, hk, -⟩ | ⟨mn, _, rfl, ⟨hk, -⟩, -⟩ | ⟨mn, _, rfl, ⟨hk, -⟩, -⟩ | ⟨mn, _, rfl, ⟨hk, -⟩, -⟩ |
      ⟨mn, _, rfl, ⟨hk, -⟩, -⟩ := effect_slot he o
    · exact h
    all_goals exact absurd hk hi

/-- Settles O41: the command commutes with the replacement, and leaves the slot where it has a next state. -/
theorem slotIsolation : Obligations.SlotIsolation := by
  unfold Obligations.SlotIsolation
  intro i k s v hi
  have h := exec_setSlot hi v s
  cases hx : exec i s with
  | next t => exact ⟨by rw [h, hx]; rfl, exec_slot_of_not_named hi hx⟩
  | fault f => exact h.trans (congrArg _ hx)
  | refused r => exact h.trans (congrArg _ hx)

end Sys2Proof.Machine
end

section
/-! A bus fault during a command's stream (60_exceptions R146): what stands in OUT and in the shadow when the Port
accepted `j` transactions and answered the next with a bus fault. -/

namespace Sys2Proof.Machine

/-! ## The shadow after a bus fault -/

theorem shadowAt_busFault_same (c : Vector ChanValue 16) (ch : Channel) (on off : Half) :
    shadowAt (shadowAfter c (.pwm ch on off) .busFault) ch = .unknown :=
  setChannel_get_same c ch .unknown

theorem shadowAt_busFault_other (c : Vector ChanValue 16) {e : Transaction} {ch : Channel}
    (h : ∀ on off, e ≠ .pwm ch on off) : shadowAt (shadowAfter c e .busFault) ch = shadowAt c ch := by
  cases e with
  | busOpen addr => rfl
  | freq hz => rfl
  | pwm c' on off => exact setChannel_get_other c .unknown fun hc => h on off (by rw [hc])

/-- The transactions emitted up to the faulting one. -/
theorem take_succ_eq {ts : List Transaction} {j : Nat} (hj : j < ts.length) : ts.take (j + 1) = ts.take j ++ [ts[j]] :=
  (List.take_append_getElem hj).symm

/-- A channel that an accepted transaction wrote last holds its pair. -/
theorem shadowAt_busFault_of_last (c : Vector ChanValue 16) {ts : List Transaction} {j n : Nat} (hj : j < ts.length)
    (hn : n < j) {ch : Channel} {on off : Half} (he : ts[n]? = some (.pwm ch on off))
    (hlast : ∀ e ∈ (ts.take (j + 1)).drop (n + 1), ∀ on' off', e ≠ .pwm ch on' off') :
    shadowAt (shadowAfter (acceptAll c (ts.take j)) ts[j] .busFault) ch = .pair on off := by
  have hlen : (ts.take j).length = j := List.length_take_of_le hj.le
  have hdrop : (ts.take (j + 1)).drop (n + 1) = (ts.take j).drop (n + 1) ++ [ts[j]] := by
    rw [take_succ_eq hj, List.drop_append_of_le_length (by omega)]
  rw [hdrop] at hlast
  have hget : (ts.take j)[n]? = some (.pwm ch on off) := by rw [List.getElem?_take_of_lt hn, he]
  have hsplit : ts.take j = (ts.take j).take n ++ .pwm ch on off :: (ts.take j).drop (n + 1) := by
    obtain ⟨hlt, hget⟩ := List.getElem?_eq_some_iff.1 hget
    rw [← hget, List.getElem_cons_drop, List.take_append_drop]
  rw [shadowAt_busFault_other _ (hlast _ (List.mem_append_right _ List.mem_cons_self)), hsplit]
  exact acceptAll_of_last c _ _ ch on off fun e h => hlast e (List.mem_append_left _ h)

/-- A channel that no emitted transaction writes stands. -/
theorem shadowAt_busFault_of_not_written (c : Vector ChanValue 16) {ts : List Transaction} {j : Nat}
    (hj : j < ts.length) {ch : Channel} (h : ∀ e ∈ ts.take (j + 1), ∀ on off, e ≠ .pwm ch on off) :
    shadowAt (shadowAfter (acceptAll c (ts.take j)) ts[j] .busFault) ch = shadowAt c ch := by
  rw [take_succ_eq hj] at h
  rw [shadowAt_busFault_other _ (h _ (List.mem_append_right _ List.mem_cons_self))]
  exact acceptAll_of_not_written c _ ch fun e he => h e (List.mem_append_left _ he)

/-! ## The command ended by it -/

theorem chanAt_raiseFault_emittedFault (code : FaultCode) (w : CmdWord) (before : List Transaction) (last : Transaction)
    (s : State) (ch : Channel) : (raiseFault code w (emittedFault before last s)).chanAt ch =
      shadowAt (shadowAfter (acceptAll s.chan before) last .busFault) ch := rfl

theorem portFaultsAfter_setSlot {s : State} {j : Nat} (h : s.PortFaultsAfter j) (k : SlotId) (v : Slot) :
    (s.setSlot k v).PortFaultsAfter j :=
  ⟨portAccepts_setSlot h.1 k v, (setSlot_answers k v s).symm ▸ h.2⟩

theorem transmit_busFault (w : CmdWord) {ts : List Transaction} {j : Nat} (finish : State → State) {s : State}
    (hj : j < ts.length) (h : s.PortFaultsAfter j) :
    transmit w ts finish s = raiseFault .bus w (emittedFault (ts.take j) ts[j] s) := by
  conv_lhs => rw [← List.take_append_drop j ts, ← List.getElem_cons_drop hj]
  exact transmit_fault w _ _ _ finish s (by rwa [List.length_take_of_le hj.le])

/-- A command that writes at most slot `k` before its transactions, ended by a bus fault, is ended as R146 says. -/
theorem endedByBusFault_transmit (w : CmdWord) {ts : List Transaction} {j : Nat} (finish : State → State) {s : State}
    (k : SlotId) (v : Slot) (hj : j < ts.length) (h : s.PortFaultsAfter j) :
    EndedByBusFault w ts j s (transmit w ts finish (s.setSlot k v)) ∧
      ∀ k', (transmit w ts finish (s.setSlot k v)).slot k' = (s.setSlot k v).slot k' := by
  have hlen : (ts.take j).length = j := List.length_take_of_le hj.le
  rw [transmit_busFault w finish hj (portFaultsAfter_setSlot h k v)]
  refine ⟨⟨?_, ?_, ?_, ?_, ?_, ?_⟩, fun k' => by simp⟩
  · simp [RaisedFault, SameOutside]
  · rw [take_succ_eq hj]
    simp [emittedFault]
  · simp [emittedFault, hlen]
  · intro ch on off he
    rw [chanAt_raiseFault_emittedFault, (List.getElem_eq_iff hj).2 he]
    exact shadowAt_busFault_same _ ch on off
  · intro n ch on off hn he hlast
    rw [chanAt_raiseFault_emittedFault]
    exact shadowAt_busFault_of_last _ hj hn he hlast
  · intro ch hno
    rw [chanAt_raiseFault_emittedFault, setSlot_chan, chanAt_eq_shadowAt]
    exact shadowAt_busFault_of_not_written _ hj hno

/-- A command that writes no register before its transactions. -/
theorem portBusFault_of_exec {i : Instr} {s : State} {ts : List Transaction} {j : Nat} {finish : State → State}
    (hex : exec i s = .next (transmit (encode i) ts finish s)) (hj : j < ts.length) (h : s.PortFaultsAfter j) :
    ∃ t, exec i s = .next t ∧ EndedByBusFault (encode i) ts j s t ∧ SameSlots s t := by
  obtain ⟨hend, hslot⟩ := endedByBusFault_transmit (encode i) finish .slot0 s.slot0 hj h
  exact ⟨_, hex, hend, hslot .slot0, hslot .slot1⟩

/-- Settles O33: each of the four commands is its transactions, and the Port faults one of them. -/
theorem portBusFault : Obligations.PortBusFault := by
  unfold Obligations.PortBusFault
  intro i s ts j hf hi hj h
  obtain ⟨ch, v, rfl, hd, rfl⟩ | ⟨ch, high, rfl, hd, rfl⟩ | ⟨f, rfl, hd, h0, rfl⟩ | ⟨mn, k, rfl, hd, hr, rfl⟩ := hi
  · exact portBusFault_of_exec (exec_setDuty_of_ready ch v ⟨hf, hd⟩) hj h
  · exact portBusFault_of_exec (exec_setRail_of_ready ch high ⟨hf, hd⟩) hj h
  · exact portBusFault_of_exec (finish := fun u => complete 0 u.setInitDone)
      (runCommand_ok hf (initChecks_ok hd h0)) hj h
  · exact portBusFault_of_exec (finish := complete 0) (runCommand_ok hf (slotChecks_ok hd hr)) hj h

/-- Settles O34: the slot has moved before the six transactions, and the Port faults one of them. -/
theorem advanceBusFault : Obligations.AdvanceBusFault := by
  unfold Obligations.AdvanceBusFault
  intro mn dir k s j hs hr hw h0 hle hj h
  obtain ⟨dA, dB, hA, hB, hex⟩ := execAdvance_eq dir hs hr hw
  obtain ⟨hend, hslot⟩ := endedByBusFault_transmit (encode (.advance mn dir))
    (ts := advanceWrites s.cfg k (moveSlot s.cfg dir (s.slot k)).phase.toNat dA dB)
    (complete (zext32 (moveSlot s.cfg dir (s.slot k)).pos)) k (moveSlot s.cfg dir (s.slot k)) hj h
  refine ⟨_, dA, dB, hex, ?_⟩
  rw [hslot k, hslot (otherSlot k), slot_setSlot, slot_setSlot_other]
  exact ⟨moveSlot_phase .., moveSlot_pos _ _ _ h0 hle, rfl, rfl, hA, hB, hend⟩

end Sys2Proof.Machine
end

section
/-! The excitation function over its cycle (41_motor_driver R101 to R104, R113, R124). -/

namespace Sys2Proof.Machine

/-- Settles O35: in each quadrant the indices are its row of the table, they sum to M and lie in the table. -/
theorem exciteValue : Obligations.ExciteValue := by
  unfold Obligations.ExciteValue
  intro c p hw hp
  obtain ⟨dA, dB, hA, hB, he⟩ := excite_eq_some hw hp
  obtain ⟨ha, hb, hsum⟩ := index_eq c hp
  refine ⟨_, he, hsum, hA, hB, ?_⟩
  simp only [← ha, ← hb]
  obtain ⟨hq, -, hlt, -⟩ | ⟨hq, -, hle, hlt, -⟩ | ⟨hq, -, hle, hlt, -⟩ | ⟨hq, -, hle, -⟩ := quadrant_cases c hp <;>
    rw [hq]
  · exact ⟨fun _ => ⟨rfl, rfl, rfl, rfl⟩, fun _ _ => by omega, fun _ _ => by omega, fun _ => by omega, rfl, rfl⟩
  · exact ⟨fun _ => by omega, fun _ _ => ⟨rfl, rfl, rfl, rfl⟩, fun _ _ => by omega, fun _ => by omega, rfl, rfl⟩
  · exact ⟨fun _ => by omega, fun _ _ => by omega, fun _ _ => ⟨rfl, rfl, rfl, rfl⟩, fun _ => by omega, rfl, rfl⟩
  · exact ⟨fun _ => by omega, fun _ _ => by omega, fun _ _ => by omega, fun _ => ⟨rfl, rfl, rfl, rfl⟩, rfl, rfl⟩

/-- At a multiple of M the cycle is in the quadrant it enters (41_motor_driver R101). -/
theorem quadrantOf_mul {m : Nat} (hm : 0 < m) :
    quadrantOf m 0 = .q0 ∧ quadrantOf m (1 * m) = .q1 ∧ quadrantOf m (2 * m) = .q2 ∧ quadrantOf m (3 * m) = .q3 := by
  simp [quadrantOf, hm]

/-- The indices that the two adjoining rows of the table give at each boundary (41_motor_driver R102, R113). -/
theorem index_boundary (m : Nat) :
    (indexA m .q3 (4 * m) = m ∧ indexB m .q3 (4 * m) = 0) ∧
    (indexA m .q0 (1 * m) = 0 ∧ indexA m .q1 (1 * m) = 0 ∧ indexB m .q0 (1 * m) = m ∧ indexB m .q1 (1 * m) = m) ∧
    (indexA m .q1 (2 * m) = m ∧ indexA m .q2 (2 * m) = m ∧ indexB m .q1 (2 * m) = 0 ∧ indexB m .q2 (2 * m) = 0) ∧
    (indexA m .q2 (3 * m) = 0 ∧ indexA m .q3 (3 * m) = 0 ∧ indexB m .q2 (3 * m) = m ∧ indexB m .q3 (3 * m) = m) := by
  simp only [indexA, indexB]
  omega

/-- Settles O36: at a multiple of M the two adjoining rows of the index table agree, and the quadrant is the one
entered. -/
theorem boundaryTieBreak : Obligations.BoundaryTieBreak := by
  unfold Obligations.BoundaryTieBreak
  intro m hm
  obtain ⟨h0, h1, h2, h3⟩ := quadrantOf_mul hm
  obtain ⟨⟨a, b⟩, ⟨a1, a1', b1, b1'⟩, ⟨a2, a2', b2, b2'⟩, ⟨a3, a3', b3, b3'⟩⟩ := index_boundary m
  refine ⟨⟨h0, a, b, rfl, rfl, by decide⟩, fun qs hqs => ?_⟩
  simp only [List.mem_cons, List.not_mem_nil, or_false] at hqs
  obtain rfl | rfl | rfl := hqs
  · exact ⟨h1, a1.trans a1'.symm, b1.trans b1'.symm, .inl ⟨a1', b1'⟩, ne_of_eq_of_ne (congrArg latchOf h1) (by decide)⟩
  · exact ⟨h2, a2.trans a2'.symm, b2.trans b2'.symm, .inr ⟨a2', b2'⟩, ne_of_eq_of_ne (congrArg latchOf h2) (by decide)⟩
  · exact ⟨h3, a3.trans a3'.symm, b3.trans b3'.symm, .inl ⟨a3', b3'⟩, ne_of_eq_of_ne (congrArg latchOf h3) (by decide)⟩

/-! ## The period of the duties -/

theorem coilIndex_add_half (m p : Nat) (hm : 0 < m) :
    coilIndexA m (p + 2 * m) = coilIndexA m p ∧ coilIndexB m (p + 2 * m) = coilIndexB m p := by
  simp [coilIndexA, coilIndexB, Nat.add_mul_div_right, hm]

theorem latch_add_half_ne (c : Config) {p : Nat} (hp : p < 2 * c.m) :
    latchOf (quadrantOf c.m p) ≠ latchOf (quadrantOf c.m (p + 2 * c.m)) := by
  have hdiv : (p + 2 * c.m) / c.m = p / c.m + 2 := Nat.add_mul_div_right p 2 (m_pos c)
  have hlt : p / c.m < 2 := (Nat.div_lt_iff_lt_mul (m_pos c)).2 hp
  simp only [quadrantOf, hdiv]
  interval_cases p / c.m <;> decide

/-- Settles O37: half a cycle on, the index formulas repeat and the quadrant is the opposite one. -/
theorem dutyPeriod : Obligations.DutyPeriod := by
  unfold Obligations.DutyPeriod
  intro c p hw hp
  have h4 : c.m4 = 4 * c.m := rfl
  obtain ⟨dA, dB, hA, hB, he⟩ := excite_eq_some hw (show p < c.m4 by omega)
  obtain ⟨dA', dB', hA', hB', he'⟩ := excite_eq_some hw (show p + 2 * c.m < c.m4 by omega)
  obtain ⟨ha, hb⟩ := coilIndex_add_half c.m p (m_pos c)
  rw [ha, hA, Option.some.injEq] at hA'
  rw [hb, hB, Option.some.injEq] at hB'
  exact ⟨_, _, he, he', hA', hB', latch_add_half_ne c hp⟩

end Sys2Proof.Machine
end

section
/-! The stream of ADVANCE depends on the phase it lands on, and leaves its channels whatever they held (41_motor_driver
R124, 40_port R94). -/

namespace Sys2Proof.Machine

/-- A next state of ADVANCE at a resolved slot, of any instance: the excitation of the new phase answered. -/
theorem exec_advance_next {mn : MotorNumber} {dir : Direction} {k : SlotId} {s t : State} (hs : s.Ready)
    (hr : s.Resolves mn k) (h : exec (.advance mn dir) s = .next t) :
    ∃ e, excite s.cfg (moveSlot s.cfg dir (s.slot k)).phase.toNat = some e ∧
      t = transmit (encode (.advance mn dir)) (advanceTransactions (s.cfg.pins k) e)
        (complete (zext32 (moveSlot s.cfg dir (s.slot k)).pos)) (s.setSlot k (moveSlot s.cfg dir (s.slot k))) := by
  have hrun := (runCommand_ok hs.1 (slotChecks_ok hs.2 hr)).symm.trans h
  cases he : excite s.cfg (moveSlot s.cfg dir (s.slot k)).phase.toNat with
  | none => simp [he] at hrun
  | some e =>
    simp only [he, Host.Outcome.next.injEq] at hrun
    exact ⟨e, rfl, hrun.symm⟩

/-- Such an ADVANCE with no bus fault: the phase is the moved one, and OUT grew by the excitation's six transactions. -/
theorem exec_advance_next_accepted {mn : MotorNumber} {dir : Direction} {k : SlotId} {s t : State} (hs : s.Ready)
    (hr : s.Resolves mn k) (hp : s.PortAccepts 6) (h : exec (.advance mn dir) s = .next t) :
    ∃ e, excite s.cfg (t.slot k).phase.toNat = some e ∧ t.out = s.out ++ advanceTransactions (s.cfg.pins k) e := by
  obtain ⟨e, he, rfl⟩ := exec_advance_next hs hr h
  refine ⟨e, ?_, ?_⟩
  · rwa [transmit_slot, slot_setSlot]
  · rw [transmit_accepted _ (advanceTransactions (s.cfg.pins k) e) _ _ (portAccepts_setSlot hp k _)]
    simp [emitted]

/-- Settles O38: the six transactions are a function of the pins and of the excitation at the phase landed on. -/
theorem excitationOfPhaseAlone : Obligations.ExcitationOfPhaseAlone := by
  unfold Obligations.ExcitationOfPhaseAlone
  intro mn dir dir' k s s' t t' hcfg hs hs' hr hr' hp hp' h h' hphase
  obtain ⟨e, he, hout⟩ := exec_advance_next_accepted hs hr hp h
  obtain ⟨e', he', hout'⟩ := exec_advance_next_accepted hs' hr' hp' h'
  rw [hcfg, hphase, he', Option.some.injEq] at he
  rw [hcfg, ← he] at hout
  exact ⟨advanceTransactions (s'.cfg.pins k) e', rfl, hout, hout'⟩

/-! ## What the channels held before -/

/-- A channel that a stream writes does not depend on the shadow before. -/
theorem shadowAt_acceptAll_of_written (c c' : Vector ChanValue 16) {ts : List Transaction} {ch : Channel}
    (h : ch ∈ writtenChannels ts) : shadowAt (acceptAll c ts) ch = shadowAt (acceptAll c' ts) ch := by
  induction ts generalizing c c' with
  | nil => cases h
  | cons e ts ih =>
    by_cases hts : ch ∈ writtenChannels ts
    · exact ih _ _ hts
    · cases e with
      | busOpen addr => exact absurd h hts
      | freq hz => exact absurd h hts
      | pwm ch' on off =>
        obtain rfl : ch = ch' := (List.mem_cons.1 h).resolve_right hts
        have hlast := fun v => acceptAll_of_last v [] ts ch on off fun e he on' off' heq =>
          hts (mem_writtenChannels (heq ▸ he))
        exact (hlast c).trans (hlast c').symm

/-- Settles O25: the same stream is accepted from both states, and it writes all six channels. -/
theorem motorChannelsOverwritten : Obligations.MotorChannelsOverwritten := by
  unfold Obligations.MotorChannelsOverwritten
  intro i mn k s held hs hr hw hp hi
  have hs' : ({ s with chan := held } : State).Ready := hs
  have hr' : ({ s with chan := held } : State).Resolves mn k := by cases k <;> exact hr
  have hp' : ({ s with chan := held } : State).PortAccepts 6 := hp
  obtain rfl | ⟨dir, rfl⟩ := hi
  · refine ⟨_, _, exec_release_accepted hs hr hp, exec_release_accepted hs' hr' hp', fun ch hch => ?_⟩
    refine shadowAt_acceptAll_of_written _ _ ?_
    rwa [writtenChannels_releaseTransactions, (releaseChannels_perm _).mem_iff]
  · have hslot : ({ s with chan := held } : State).slot k = s.slot k := by cases k <;> rfl
    obtain ⟨dA, dB, hA, hB, hex⟩ := exec_advance_accepted dir hs hr hw hp
    obtain ⟨dA', dB', hA', hB', hex'⟩ := exec_advance_accepted dir hs' hr' hw hp'
    rw [hslot] at hA' hB' hex'
    obtain rfl : dA = dA' := Option.some.inj (hA.symm.trans hA')
    obtain rfl : dB = dB' := Option.some.inj (hB.symm.trans hB')
    refine ⟨_, _, hex, hex', fun ch hch => ?_⟩
    rw [chanAt_complete_emitted, chanAt_complete_emitted]
    refine shadowAt_acceptAll_of_written _ _ ?_
    rwa [writtenChannels_advanceWrites, (advanceChannels_perm _).mem_iff]

end Sys2Proof.Machine
end

section
/-! The transients of an ADVANCE over a quadrant boundary (70_reset R165): what each channel holds after the first `n`
of the six transactions, and by that the levels of the four lines. -/

namespace Sys2Proof.Machine

/-! ## A channel after part of a stream -/

theorem writtenChannels_append (ts us : List Transaction) :
    writtenChannels (ts ++ us) = writtenChannels ts ++ writtenChannels us := by
  simp [writtenChannels, pwmPairs]

/-- In a stream that writes no channel twice, a channel changes at its one transaction. -/
theorem shadowAt_acceptAll_take (c : Vector ChanValue 16) {ts : List Transaction} (hnodup : (writtenChannels ts).Nodup)
    {i : Nat} {ch : Channel} {on off : Half} (he : ts[i]? = some (.pwm ch on off)) (n : Nat) :
    shadowAt (acceptAll c (ts.take n)) ch = if i < n then .pair on off else shadowAt c ch := by
  rw [← List.take_append_drop n ts, writtenChannels_append, List.nodup_append'] at hnodup
  obtain ⟨htake, -, hdisjoint⟩ := hnodup
  split
  case isTrue hi =>
    exact shadowAt_acceptAll_of_mem c htake (List.mem_of_getElem? ((List.getElem?_take_of_lt hi).trans he))
  case isFalse hi =>
    have hdrop : (ts.drop n)[i - n]? = some (.pwm ch on off) := by
      rw [List.getElem?_drop, Nat.add_sub_cancel' (Nat.not_lt.1 hi), he]
    exact shadowAt_acceptAll_of_notMem c fun h =>
      hdisjoint h (mem_writtenChannels (List.mem_of_getElem? hdrop))

/-! ## The lines by quadrants -/

/-- The level of AIN1 in quadrant `q` (41_motor_driver R103). -/
def ain1Level (q : Nat) : Bool := decide (q = 1 ∨ q = 2)

/-- The level of AIN2 in quadrant `q` (41_motor_driver R103). -/
def ain2Level (q : Nat) : Bool := decide (q = 0 ∨ q = 3)

/-- The level of BIN1 in quadrant `q` (41_motor_driver R103). -/
def bin1Level (q : Nat) : Bool := decide (q = 0 ∨ q = 1)

/-- The level of BIN2 in quadrant `q` (41_motor_driver R103). -/
def bin2Level (q : Nat) : Bool := decide (q = 2 ∨ q = 3)

theorem linesAt_iff (p : Pins) (q : Nat) (c : Vector ChanValue 16) :
    LinesAt p q c ↔ AtRail c p.ain1 (ain1Level q) ∧ AtRail c p.ain2 (ain2Level q) ∧ AtRail c p.bin1 (bin1Level q) ∧
      AtRail c p.bin2 (bin2Level q) := Iff.rfl

/-- The quadrant whose latch a line stands at after `n` transactions, the line's own being number `i` from 0. -/
def quadrantAfter (left entered i n : Nat) : Nat := if i < n then entered else left

/-- The pair that is not opposed throughout stands at one level in its window and is opposed outside it, the other pair
is always opposed: the table of 70_reset R165, in levels. -/
theorem transition_levels : ∀ r ∈ transitions, ∀ n ≤ 6,
    let ain1 := ain1Level (quadrantAfter r.left r.entered 4 n)
    let ain2 := ain2Level (quadrantAfter r.left r.entered 2 n)
    let bin1 := bin1Level (quadrantAfter r.left r.entered 3 n)
    let bin2 := bin2Level (quadrantAfter r.left r.entered 5 n)
    if r.pairA = true then
      (if n = 3 ∨ n = 4 then ain1 = r.level ∧ ain2 = r.level else ain2 = !ain1) ∧ bin2 = !bin1
    else (if n = 4 ∨ n = 5 then bin1 = r.level ∧ bin2 = r.level else bin2 = !bin1) ∧ ain2 = !ain1 := by
  decide

theorem PairOpposed.of_levels {c : Vector ChanValue 16} {one two : Channel} {a b : Bool} (h1 : AtRail c one a)
    (h2 : AtRail c two b) (h : b = !a) : PairOpposed c one two := ⟨a, h1, h ▸ h2⟩

/-- A pair's part of a row, from the levels of its two lines to the shadow. -/
theorem pair_of_levels {c : Vector ChanValue 16} {one two : Channel} {a b level : Bool} {window : Prop}
    [Decidable window] (h1 : AtRail c one a) (h2 : AtRail c two b)
    (h : if window then a = level ∧ b = level else b = !a) :
    if window then PairLevel c one two level else PairOpposed c one two := by
  split at h
  case isTrue hw =>
    obtain ⟨rfl, rfl⟩ := h
    rw [if_pos hw]
    exact ⟨h1, h2⟩
  case isFalse hw =>
    rw [if_neg hw]
    exact PairOpposed.of_levels h1 h2 h

/-! ## ADVANCE over a boundary -/

theorem nodup_writtenChannels_advanceWrites {c : Config} (hw : c.wf = true) (k : SlotId) (p : Nat) (dA dB : Duty) :
    (writtenChannels (advanceWrites c k p dA dB)).Nodup := by
  rw [writtenChannels_advanceWrites, (advanceChannels_perm (c.pins k)).nodup_iff]
  exact channels_nodup (pinsOk_of_wf hw) k

section
variable {c : Config} (hw : c.wf = true) (k : SlotId) (p : Nat) (dA dB : Duty) (v : Vector ChanValue 16)
include hw

/-- The duties after `n` transactions. -/
theorem duties_after_take (n : Nat) :
    shadowAt (acceptAll v ((advanceWrites c k p dA dB).take n)) (c.pins k).pwma =
      (if 0 < n then .pair 0 (dA.setWidth 13) else shadowAt v (c.pins k).pwma) ∧
    shadowAt (acceptAll v ((advanceWrites c k p dA dB).take n)) (c.pins k).pwmb =
      (if 1 < n then .pair 0 (dB.setWidth 13) else shadowAt v (c.pins k).pwmb) := by
  have hnodup := nodup_writtenChannels_advanceWrites hw k p dA dB
  exact ⟨shadowAt_acceptAll_take v hnodup rfl n, shadowAt_acceptAll_take v hnodup rfl n⟩

/-- The lines after `n` transactions, each at the latch of the quadrant left until its own. -/
theorem lines_after_take {left : Nat} (h : LinesAt (c.pins k) left v) (n : Nat) :
    let held := acceptAll v ((advanceWrites c k p dA dB).take n)
    AtRail held (c.pins k).ain1 (ain1Level (quadrantAfter left (p / c.m) 4 n)) ∧
    AtRail held (c.pins k).ain2 (ain2Level (quadrantAfter left (p / c.m) 2 n)) ∧
    AtRail held (c.pins k).bin1 (bin1Level (quadrantAfter left (p / c.m) 3 n)) ∧
    AtRail held (c.pins k).bin2 (bin2Level (quadrantAfter left (p / c.m) 5 n)) := by
  have hnodup := nodup_writtenChannels_advanceWrites hw k p dA dB
  have line : ∀ {i : Nat} {ch : Channel} {level : Nat → Bool},
      (advanceWrites c k p dA dB)[i]? = some (.pwm ch (railHalf (level (p / c.m))) 0) → AtRail v ch (level left) →
      AtRail (acceptAll v ((advanceWrites c k p dA dB).take n)) ch (level (quadrantAfter left (p / c.m) i n)) := by
    intro i ch level he hleft
    rw [AtRail, shadowAt_acceptAll_take v hnodup he, quadrantAfter]
    split
    · rfl
    · exact hleft
  obtain ⟨h1, h2, h3, h4⟩ := (linesAt_iff _ _ _).1 h
  exact ⟨line (level := ain1Level) rfl h1, line (level := ain2Level) rfl h2, line (level := bin1Level) rfl h3,
    line (level := bin2Level) rfl h4⟩

end

/-- Settles O39: each line changes at its own transaction from the latch of the quadrant left to that of the quadrant
entered, and the table's rows are those levels. -/
theorem boundaryTransients : Obligations.BoundaryTransients := by
  unfold Obligations.BoundaryTransients
  intro mn k s r hs hr hw hp hrow _ hentered hlines
  obtain ⟨dA, dB, -, -, hex⟩ := exec_advance_accepted r.dir hs hr hw hp
  rw [← moveSlot_phase] at hentered
  have hduty := duties_after_take hw k (moveSlot s.cfg r.dir (s.slot k)).phase.toNat dA dB s.chan
  have hline := lines_after_take hw k (moveSlot s.cfg r.dir (s.slot k)).phase.toNat dA dB s.chan hlines
  rw [hentered] at hline
  refine ⟨_, advanceWrites s.cfg k (moveSlot s.cfg r.dir (s.slot k)).phase.toNat dA dB, hex, rfl, ?_, ?_⟩
  · simp [Emitted, emitted]
  simp only [chanAt_complete_emitted, setSlot_chan]
  refine ⟨(hduty 1).1.trans (hduty 6).1.symm, (hduty 1).2, (hduty 2).1.trans (hduty 6).1.symm,
    (hduty 2).2.trans (hduty 6).2.symm, hline 2, hline 6, ?_, fun n hn => ?_⟩
  · exact congrArg (acceptAll · _) (setSlot_chan k _ s).symm
  · obtain ⟨ha1, ha2, hb1, hb2⟩ := hline n
    have hlevel := transition_levels r hrow n hn
    split
    case isTrue hA =>
      obtain ⟨hpair, hother⟩ := (if_pos hA).mp hlevel
      exact ⟨pair_of_levels ha1 ha2 hpair, .of_levels hb1 hb2 hother⟩
    case isFalse hA =>
      obtain ⟨hpair, hother⟩ := (if_neg hA).mp hlevel
      exact ⟨pair_of_levels hb1 hb2 hpair, .of_levels ha1 ha2 hother⟩

end Sys2Proof.Machine
end

section
/-! The laws of ADVANCE (41_motor_driver R110, R111, R124; 10_state R41): the movement of a slot iterated, and the runs
of ADVANCEs that carry it. -/

namespace Sys2Proof.Machine

/-! ## The counters -/

/-- One step forward and one back in a cycle, in either order. -/
theorem advanced_advanced {dir back : Direction} (hne : dir ≠ back) {n x : Nat} (hx : x < n) :
    advanced back n (advanced dir n x) = x := by
  have hn : 0 < n := Nat.zero_lt_of_lt hx
  match dir, back, hne with
  | .forward, .backward, _ =>
    simp only [advanced, Nat.add_sub_assoc hn, Nat.mod_add_mod]
    rw [show x + 1 + (n - 1) = x + n by omega, Nat.add_mod_right, Nat.mod_eq_of_lt hx]
  | .backward, .forward, _ =>
    simp only [advanced, Nat.mod_add_mod]
    rw [show x + n - 1 + 1 = x + n by omega, Nat.add_mod_right, Nat.mod_eq_of_lt hx]

/-- A step in a cycle commutes with the remainder by a divisor of its length. -/
theorem advanced_mod (dir : Direction) {d n : Nat} (hd : d ∣ n) (hn : 0 < n) (x : Nat) :
    advanced dir n x % d = advanced dir d (x % d) := by
  have hpos : 0 < d := Nat.pos_of_dvd_of_pos hd hn
  cases dir with
  | forward => simp only [advanced, Nat.mod_mod_of_dvd _ hd, Nat.mod_add_mod]
  | backward =>
    obtain ⟨c, rfl⟩ := hd
    obtain ⟨c, rfl⟩ : ∃ c', c = c' + 1 := Nat.exists_eq_succ_of_ne_zero fun h => by simp [h] at hn
    simp only [advanced]
    rw [Nat.mod_mod_of_dvd _ (Dvd.intro (c + 1) rfl), Nat.add_sub_assoc hpos, Nat.mod_add_mod]
    rw [show x + d * (c + 1) - 1 = x + (d - 1) + d * c by rw [Nat.mul_succ]; omega, Nat.add_mul_mod_self_left]

/-! ## A slot within its bounds -/

/-- A claimed slot with PHASE in its cycle and POS in a legal revolution (10_state R30 to R32). -/
structure InBounds (c : Config) (v : Slot) : Prop where
  phase : v.phase.toNat < c.m4
  pos : v.pos.toNat < v.nrev.toNat
  nrev : v.nrev.toNat ≤ 65536

theorem InBounds.moveSlot {c : Config} {v : Slot} (h : InBounds c v) (dir : Direction) :
    InBounds c (moveSlot c dir v) where
  phase := moveSlot_phase_lt c dir v
  pos := by
    rw [moveSlot_pos c dir v (Nat.zero_lt_of_lt h.pos) h.nrev]
    exact advanced_lt dir _ (Nat.zero_lt_of_lt h.pos)
  nrev := h.nrev

theorem InBounds.iterate {c : Config} {v : Slot} (h : InBounds c v) (dir : Direction) (n : Nat) :
    InBounds c ((Machine.moveSlot c dir)^[n] v) := by
  induction n with
  | zero => exact h
  | succ n ih =>
    rw [Function.iterate_succ_apply']
    exact ih.moveSlot dir

/-- A move and the move back leave the slot as it was. -/
theorem InBounds.move_back {c : Config} {v : Slot} (h : InBounds c v) {dir back : Direction} (hne : dir ≠ back) :
    Machine.moveSlot c back (Machine.moveSlot c dir v) = v := by
  have h' := h.moveSlot dir
  have hphase : (Machine.moveSlot c back (Machine.moveSlot c dir v)).phase = v.phase := BitVec.eq_of_toNat_eq (by
    rw [moveSlot_phase, moveSlot_phase, advanced_advanced hne h.phase])
  have hpos : (Machine.moveSlot c back (Machine.moveSlot c dir v)).pos = v.pos := BitVec.eq_of_toNat_eq (by
    rw [moveSlot_pos c back _ (Nat.zero_lt_of_lt h'.pos) h'.nrev, moveSlot_pos c dir v (Nat.zero_lt_of_lt h.pos) h.nrev]
    exact advanced_advanced hne h.pos)
  cases v
  simp only [Machine.moveSlot, Slot.mk.injEq] at hphase hpos ⊢
  exact ⟨trivial, trivial, hphase, hpos, trivial, trivial, trivial, trivial⟩

/-- `n` moves and `n` back. -/
theorem InBounds.iterate_back {c : Config} {v : Slot} (h : InBounds c v) {dir back : Direction} (hne : dir ≠ back)
    (n : Nat) : (Machine.moveSlot c back)^[n] ((Machine.moveSlot c dir)^[n] v) = v := by
  induction n with
  | zero => rfl
  | succ n ih =>
    rw [Function.iterate_succ_apply, Function.iterate_succ_apply' (Machine.moveSlot c dir),
      (h.iterate dir n).move_back hne, ih]

/-- PHASE and POS after `n` moves forward. -/
theorem InBounds.iterate_forward {c : Config} {v : Slot} (h : InBounds c v) (n : Nat) :
    ((Machine.moveSlot c .forward)^[n] v).phase.toNat = (v.phase.toNat + n) % c.m4 ∧
    ((Machine.moveSlot c .forward)^[n] v).pos.toNat = (v.pos.toNat + n) % v.nrev.toNat ∧
    ((Machine.moveSlot c .forward)^[n] v).nrev = v.nrev := by
  induction n with
  | zero => exact ⟨(Nat.mod_eq_of_lt h.phase).symm, (Nat.mod_eq_of_lt h.pos).symm, rfl⟩
  | succ n ih =>
    obtain ⟨hphase, hpos, hnrev⟩ := ih
    have hn := h.iterate .forward n
    rw [Function.iterate_succ_apply']
    refine ⟨?_, ?_, hnrev⟩
    · rw [moveSlot_phase, hphase]
      exact Nat.mod_add_mod ..
    · rw [moveSlot_pos c .forward _ (Nat.zero_lt_of_lt hn.pos) hn.nrev, hpos, hnrev]
      exact Nat.mod_add_mod ..

/-! ## Runs of ADVANCEs -/

/-- What a run needs of a state to ADVANCE slot `k`, but for the Port's answers. -/
structure CanAdvance (s : State) (mn : MotorNumber) (k : SlotId) : Prop where
  ready : s.Ready
  resolves : s.Resolves mn k
  wf : s.cfg.wf = true

/-- One ADVANCE with no bus fault moves the slot, uses six of the Port's answers, and can be followed by another. -/
theorem CanAdvance.exec {mn : MotorNumber} {k : SlotId} {s : State} (h : CanAdvance s mn k) (dir : Direction)
    (hp : s.PortAccepts 6) : ∃ t, Machine.exec (.advance mn dir) s = .next t ∧ CanAdvance t mn k ∧ t.cfg = s.cfg ∧
      t.slot k = moveSlot s.cfg dir (s.slot k) ∧ t.answers = s.answers.drop 6 := by
  obtain ⟨dA, dB, -, -, hex⟩ := exec_advance_accepted dir h.ready h.resolves h.wf hp
  refine ⟨_, hex, ⟨⟨?_, ?_⟩, ⟨h.resolves.1, ?_⟩, ?_⟩, ?_, ?_, ?_⟩
  · simpa using h.ready.1
  · simpa using h.ready.2
  · simpa [moveSlot] using h.resolves.2
  · simpa using h.wf
  · simp
  · simp
  · simp [emitted, advanceWrites_length]

/-- `n` ADVANCEs with no bus fault move the slot `n` times, using six answers each. -/
theorem CanAdvance.execTimes {mn : MotorNumber} {k : SlotId} {s : State} (h : CanAdvance s mn k) (dir : Direction)
    (n : Nat) (hp : s.PortAccepts (6 * n)) :
    ∃ t, Machine.execTimes (.advance mn dir) n s = .next t ∧ CanAdvance t mn k ∧ t.cfg = s.cfg ∧
      t.slot k = (moveSlot s.cfg dir)^[n] (s.slot k) ∧ t.answers = s.answers.drop (6 * n) := by
  induction n generalizing s with
  | zero => exact ⟨s, rfl, h, rfl, rfl, rfl⟩
  | succ n ih =>
    obtain ⟨t, hex, ht, hcfg, hslot, hans⟩ := h.exec dir (portAccepts_mono (by omega) hp)
    have hpt : t.PortAccepts (6 * n) := portAccepts_of_answers hans (by rwa [Nat.add_comm])
    obtain ⟨u, hexu, hu, hcfgu, hslotu, hansu⟩ := ih ht hpt
    refine ⟨u, ?_, hu, hcfgu.trans hcfg, ?_, ?_⟩
    · simp only [Machine.execTimes, hex, hexu]
    · rw [hslotu, hcfg, hslot, Function.iterate_succ_apply]
    · rw [hansu, hans, List.drop_drop, Nat.mul_succ, Nat.add_comm]

/-! ## The laws -/

theorem SlotInv.legalRevolution {c : Config} {v : Slot} (h : SlotInv c v) (hc : v.claimed = true) :
    LegalRevolution c v := by
  obtain ⟨-, -, hrev, -⟩ := h
  exact hrev hc

theorem inBounds_of_slotInv {c : Config} {v : Slot} (h : SlotInv c v) (hc : v.claimed = true)
    (hpos : v.pos.toNat < v.nrev.toNat) : InBounds c v :=
  ⟨h.1, hpos, (legalRevolution_bounds (h.legalRevolution hc)).2⟩

/-- Settles O52: the runs iterate the movement and its inverse. -/
theorem roundTrip : Obligations.RoundTrip := by
  unfold Obligations.RoundTrip
  intro n mn dir back k s hne hs hr hw hinv hpos hp
  have hbounds := inBounds_of_slotInv hinv hr.2 hpos
  obtain ⟨t, hex, ht, hcfg, hslot, hans⟩ :=
    CanAdvance.execTimes ⟨hs, hr, hw⟩ dir n (portAccepts_mono (by omega) hp)
  have hpt : t.PortAccepts (6 * n) := portAccepts_of_answers hans (portAccepts_mono (by omega) hp)
  obtain ⟨u, hexu, -, -, hslotu, -⟩ := ht.execTimes back n hpt
  exact ⟨t, u, hex, hexu, by rw [hslotu, hcfg, hslot, hbounds.iterate_back hne n]⟩

/-- A sum with a multiple of the cycle, and with no other number, has the same remainder. -/
theorem add_mod_eq_iff_dvd {x len : Nat} (hx : x < len) (n : Nat) : (x + n) % len = x ↔ len ∣ n := by
  conv_lhs => rhs; rw [← Nat.mod_eq_of_lt hx]
  exact Nat.add_modEq_left_iff

/-- Settles O53: after NREV moves POS and PHASE have advanced by NREV in their cycles. -/
theorem fullRevolution : Obligations.FullRevolution := by
  unfold Obligations.FullRevolution
  intro mn k s hs hr hw hinv h0 hp
  obtain ⟨hn, -⟩ := legalRevolution_bounds (hinv.legalRevolution hr.2)
  have hbounds := inBounds_of_slotInv hinv hr.2 (by rwa [h0])
  obtain ⟨t, hex, -, -, hslot, -⟩ := CanAdvance.execTimes ⟨hs, hr, hw⟩ .forward (s.slot k).nrev.toNat hp
  obtain ⟨hphase, hpos, -⟩ := hbounds.iterate_forward (s.slot k).nrev.toNat
  rw [← hslot] at hphase hpos
  refine ⟨t, hex, BitVec.eq_of_toNat_eq ?_, ?_⟩
  · rw [hpos, h0]
    simp
  · rw [← BitVec.toNat_inj, hphase]
    exact add_mod_eq_iff_dvd hbounds.phase _

/-- A completed ADVANCE has moved the slot it resolves. -/
theorem slot_of_advance_completed {mn : MotorNumber} {dir : Direction} {k : SlotId} {s t : State} (hr : s.Resolves mn k)
    (h : exec (.advance mn dir) s = .next t) (hf : t.faulted = false) : t.slot k = moveSlot s.cfg dir (s.slot k) := by
  obtain ⟨-, ⟨code, -, rfl⟩ | ⟨-, j, e, hj, -, rfl⟩⟩ := exec_next h
  · simp at hf
  · obtain rfl : k = j := Option.some.inj (hr.1.symm.trans hj.1)
    rw [transmit_slot, slot_setSlot]

/-- Settles O54: the movement of POS, taken modulo M4, is the movement of PHASE. -/
theorem alignmentKept : Obligations.AlignmentKept := by
  unfold Obligations.AlignmentKept
  intro mn dir k s t hinv _ hr hpos hdvd halign h hf
  have hbounds := inBounds_of_slotInv hinv hr.2 hpos
  have hn := Nat.zero_lt_of_lt hpos
  rw [slot_of_advance_completed hr h hf, moveSlot_phase, moveSlot_pos _ _ _ hn hbounds.nrev, advanced_mod dir hdvd hn,
    halign]

end Sys2Proof.Machine
end

section
/-! Elaboration (00_scope R5, 20_memory R47, R55): it answers the parameters as written, and asks for them exactly what
the rules do. -/

namespace Sys2Proof

/-- Every parameter of the instance is the one written. -/
structure AsWritten (p : RawParams) (c : Config) : Prop where
  mstep : c.m = p.mstep
  excTable : c.excTable.map BitVec.toNat = p.excTable
  pins0 : c.pins0.channels.map BitVec.toNat = p.pins0
  pins1 : c.pins1.channels.map BitVec.toNat = p.pins1
  initOrder : c.initOrder = p.initOrder
  slot0Rearm : c.slot0Rearm = p.slot0Rearm
  busAddr : c.busAddr.toNat = p.busAddr

/-- An entry of the table, read as written. -/
theorem getElem?_map_toNat (t : List Duty) (i : Nat) (d : Duty) :
    (t.map BitVec.toNat)[i]? = some d.toNat ↔ t[i]? = some d := by
  rw [List.getElem?_map, ← Option.map_some]
  exact (Option.map_injective fun _ _ => BitVec.eq_of_toNat_eq).eq_iff

/-- The constraints of an instance are those of its parameters as written; what they ask of the widths is in the
types. -/
theorem AsWritten.wf_iff_legal {p : RawParams} {c : Config} (h : AsWritten p c) : c.wf = true ↔ p.Legal := by
  obtain ⟨hm, ht, h0, h1, -, -, hb⟩ := h
  have hmstep : c.m = 8 ∨ c.m = 16 := (Machine.m4_cases c).imp And.left And.left
  have hentries : ∀ v ∈ c.excTable.map BitVec.toNat, v ≤ 4095 := List.forall_mem_map.2 fun d _ => by omega
  have hpins : ∀ v ∈ (c.pins0.channels ++ c.pins1.channels).map BitVec.toNat, v < 16 :=
    List.forall_mem_map.2 fun ch _ => ch.isLt
  have hnodup : ((c.pins0.channels ++ c.pins1.channels).map BitVec.toNat).Nodup ↔
      (c.pins0.channels ++ c.pins1.channels).Nodup := List.nodup_map_iff fun a b => BitVec.eq_of_toNat_eq
  have hstart := getElem?_map_toNat c.excTable 0 0
  have hend := getElem?_map_toNat c.excTable c.m 4095
  rw [wf_iff, List.head?_eq_getElem?, RawParams.Legal, ← hm, ← ht, ← h0, ← h1, ← hb, ← List.map_append, hnodup,
    List.length_map, ← hstart, ← hend]
  exact ⟨fun ⟨hlen, hs, he, ho, hn⟩ => ⟨hmstep, c.busAddr.isLt, hlen, hentries, hs, he, ho, rfl, rfl, hpins, hn⟩,
    fun ⟨_, _, hlen, _, hs, he, ho, _, _, _, hn⟩ => ⟨hlen, hs, he, ho, hn⟩⟩

/-- The checks of the single parameters pass and give `c`. -/
structure Parts (p : RawParams) (c : Config) : Prop where
  mstep : elaborateMStep p.mstep = some c.mstep
  excTable : elaborateTable p.excTable = some c.excTable
  pins0 : elaboratePins p.pins0 = some c.pins0
  pins1 : elaboratePins p.pins1 = some c.pins1
  initOrder : c.initOrder = p.initOrder
  slot0Rearm : c.slot0Rearm = p.slot0Rearm
  busAddr_lt : p.busAddr < 128
  busAddr : c.busAddr = BitVec.ofNat 7 p.busAddr

theorem elaborate_eq_some_iff (p : RawParams) (c : Config) : elaborate p = some c ↔ Parts p c ∧ c.wf = true := by
  constructor
  · intro h
    simp only [elaborate, Option.bind_eq_bind, Option.bind_eq_some_iff, Option.ite_none_right_eq_some] at h
    obtain ⟨mstep, hm, table, ht, pins0, h0, pins1, h1, hb, hw, hc⟩ := h
    cases hc
    exact ⟨⟨hm, ht, h0, h1, rfl, rfl, hb, rfl⟩, hw⟩
  · rintro ⟨⟨hm, ht, h0, h1, ho, hr, hlt, hb⟩, hw⟩
    have hc : (⟨c.mstep, c.excTable, c.pins0, c.pins1, p.initOrder, p.slot0Rearm, .ofNat 7 p.busAddr⟩ : Config) =
        c := by
      rw [← ho, ← hr, ← hb]
    simp [elaborate, hm, ht, h0, h1, hlt, hc, hw]

theorem elaborateMStep_some {n : Nat} {m : MStep} (h : elaborateMStep n = some m) : m.count = n := by
  unfold elaborateMStep at h
  split at h
  · cases h; simp [MStep.count, *]
  · split at h <;> cases h; simp [MStep.count, *]

theorem elaborateMStep_isSome {n : Nat} (h : n = 8 ∨ n = 16) : ∃ m, elaborateMStep n = some m := by
  obtain rfl | rfl := h
  · exact ⟨.m8, rfl⟩
  · exact ⟨.m16, rfl⟩

theorem elaborateTable_isSome {t : List Nat} (h : ∀ v ∈ t, v ≤ 4095) : ∃ d, elaborateTable t = some d :=
  ⟨_, if_pos (List.all_eq_true.2 fun v hv => decide_eq_true (h v hv))⟩

theorem Parts.asWritten {p : RawParams} {c : Config} (h : Parts p c) : AsWritten p c where
  mstep := elaborateMStep_some h.mstep
  excTable := (elaborateTable_some h.excTable).1
  pins0 := (elaboratePins_some h.pins0).1
  pins1 := (elaboratePins_some h.pins1).1
  initOrder := h.initOrder
  slot0Rearm := h.slot0Rearm
  busAddr := by rw [h.busAddr, BitVec.toNat_ofNat, Nat.mod_eq_of_lt h.busAddr_lt]

theorem parts_of_legal {p : RawParams} (h : p.Legal) : ∃ c, Parts p c := by
  obtain ⟨hm, hb, -, ht, -, -, -, h0, h1, hpins, -⟩ := h
  obtain ⟨m, hm⟩ := elaborateMStep_isSome hm
  obtain ⟨t, ht⟩ := elaborateTable_isSome ht
  obtain ⟨p0, h0⟩ := elaboratePins_isSome h0 fun v hv => hpins v (List.mem_append_left _ hv)
  obtain ⟨p1, h1⟩ := elaboratePins_isSome h1 fun v hv => hpins v (List.mem_append_right _ hv)
  exact ⟨⟨m, t, p0, p1, p.initOrder, p.slot0Rearm, .ofNat 7 p.busAddr⟩, hm, ht, h0, h1, rfl, rfl, hb, rfl⟩

/-- Settles O56: parameters that pass the single checks give an instance as written, whose constraints are theirs. -/
theorem elaborationRejects : Obligations.ElaborationRejects := by
  unfold Obligations.ElaborationRejects
  intro p
  refine ⟨fun h => ?_, fun h => ?_⟩
  · obtain ⟨c, hc⟩ := parts_of_legal h
    have hp := hc.asWritten
    have hw := hp.wf_iff_legal.2 h
    exact ⟨c, (elaborate_eq_some_iff p c).2 ⟨hc, hw⟩, hw, hp.mstep, hp.excTable, hp.pins0, hp.pins1, hp.initOrder,
      hp.slot0Rearm, hp.busAddr⟩
  · refine Option.eq_none_iff_forall_ne_some.2 fun c he => h ?_
    obtain ⟨hc, hw⟩ := (elaborate_eq_some_iff p c).1 he
    exact hc.asWritten.wf_iff_legal.1 hw

end Sys2Proof
end

section
/-! The assembler on one line (30_encoding R80): the operands in range, then the command's word. -/

namespace Sys2Proof.Machine

/-- A line with one operand to check, and the word of its command. -/
theorem assemble_line_one {α : Type} {l : AsmLine} {p : Prop} [Decidable p] {x : α} {f : α → Instr} {w : CmdWord}
    (h : l.command = (if p then some x else none).map f) (hw : encode (f x) = w) :
    assemble [.line l] = if p then some [w] else none := by
  rw [assemble_line, h, ← hw]
  split <;> rfl

/-- A line with two operands to check, and the word of its command. -/
theorem assemble_line_two {α β : Type} {l : AsmLine} {p q : Prop} [Decidable p] [Decidable q] {x : α} {y : β}
    {f : α → β → Instr} {w : CmdWord}
    (h : l.command = (if p then some x else none).bind fun a => (if q then some y else none).bind fun b => some (f a b))
    (hw : encode (f x y) = w) : assemble [.line l] = if p ∧ q then some [w] else none := by
  rw [assemble_line, h, ← hw]
  by_cases hp : p <;> by_cases hq : q <;> simp [hp, hq]

/-- Settles O57: every line checks one operand or two, and its word is the encoding of its command. -/
theorem assemblerOperands : Obligations.AssemblerOperands := by
  unfold Obligations.AssemblerOperands
  intro mn ch v
  refine ⟨assemble_line_one rfl rfl, assemble_line_two rfl rfl, fun high => assemble_line_one rfl ?_,
    assemble_line_two rfl rfl, fun dir => assemble_line_one rfl ?_, assemble_line_one rfl rfl,
    assemble_line_two rfl rfl, assemble_line_two rfl rfl, assemble_line_one rfl rfl, assemble_line_one rfl rfl,
    assemble_line_two rfl rfl, assemble_line_one rfl rfl⟩
  · cases high <;> rfl
  · cases dir <;> rfl

end Sys2Proof.Machine
end
